-- ==== Sys2Proof/Word.lean ====
section
/-! DEFINITION. Sys2Proof/Word.lean: the word types of the block (spec R7, R20, R21) and nothing else. -/

namespace Sys2Proof

/-- One byte of MEM, one general register, one timer (R21, R28, R31). Arithmetic wraps modulo 2^8. -/
abbrev Byte := BitVec 8

/-- One 16-bit word: an instruction, PC, I, a STACK entry (R24, R26, R27, R80). Arithmetic wraps modulo 2^16. -/
abbrev Word := BitVec 16

/-- The number of a general register V0 to VF, or of a key 0x0 to 0xF (R21, R30). -/
abbrev RegIdx := Fin 16

/-- VF, the register that doubles as the flag (R22). -/
abbrev VF : RegIdx := 15

end Sys2Proof
end

