-- ==== Sys2Proof/Config.lean ====
section
/-! DEFINITION. Sys2Proof/Config.lean: what the spec leaves free and no program can fix (R8, R218). The other two open
parameters of R8 are arguments: FONT of the `reset` event and STEPS_PER_FRAME of the driver's schedule
(Sys2Proof/Machine/Events.lean). -/

namespace Sys2Proof.Config

/-- The byte the random source presents at its n-th draw (R8, R132, R218; decision D12). It is a FREE value: an opaque
constant with no body, so nothing can be proved about a particular draw. The step applies it to the counter
`State.draws`, so each execution of CXNN reads a draw of its own. Log entry 1. -/
opaque rand8 : Nat → Byte

end Sys2Proof.Config
end

