-- ==== Sys2Proof/Syntax.lean ====
section
/-! DEFINITION. Sys2Proof/Syntax.lean: the instruction set, one constructor for each of the 34 rows of
spec/opcode_table.json in the table's order (R86). The operand types hold exactly the values the formats of R82 admit. -/

namespace Sys2Proof

/-- The 34 instructions of R86. `x` and `y` are register numbers, `nn` the 8-bit immediate, `nnn` the 12-bit address,
`n` the 4-bit row count (R81, R83). -/
inductive Instr where
  /-- 00E0 CLS (R161) -/
  | cls
  /-- 00EE RET (R101) -/
  | ret
  /-- 1NNN JP NNN (R102) -/
  | jp (nnn : BitVec 12)
  /-- 2NNN CALL NNN (R103) -/
  | call (nnn : BitVec 12)
  /-- 3XNN SE Vx, NN (R105) -/
  | seImm (x : RegIdx) (nn : Byte)
  /-- 4XNN SNE Vx, NN (R106) -/
  | sneImm (x : RegIdx) (nn : Byte)
  /-- 5XY0 SE Vx, Vy (R107) -/
  | seReg (x y : RegIdx)
  /-- 6XNN LD Vx, NN (R121) -/
  | ldImm (x : RegIdx) (nn : Byte)
  /-- 7XNN ADD Vx, NN (R122) -/
  | addImm (x : RegIdx) (nn : Byte)
  /-- 8XY0 LD Vx, Vy (R123) -/
  | ldReg (x y : RegIdx)
  /-- 8XY1 OR Vx, Vy (R124) -/
  | orReg (x y : RegIdx)
  /-- 8XY2 AND Vx, Vy (R125) -/
  | andReg (x y : RegIdx)
  /-- 8XY3 XOR Vx, Vy (R126) -/
  | xorReg (x y : RegIdx)
  /-- 8XY4 ADD Vx, Vy (R127) -/
  | addReg (x y : RegIdx)
  /-- 8XY5 SUB Vx, Vy (R128) -/
  | subReg (x y : RegIdx)
  /-- 8XY6 SHR Vx (R129); the Y digit is part of the word and is ignored by the meaning -/
  | shr (x y : RegIdx)
  /-- 8XY7 SUBN Vx, Vy (R130) -/
  | subnReg (x y : RegIdx)
  /-- 8XYE SHL Vx (R131); the Y digit is part of the word and is ignored by the meaning -/
  | shl (x y : RegIdx)
  /-- 9XY0 SNE Vx, Vy (R108) -/
  | sneReg (x y : RegIdx)
  /-- ANNN LD I, NNN (R141) -/
  | ldI (nnn : BitVec 12)
  /-- BNNN JP V0, NNN (R104) -/
  | jpV0 (nnn : BitVec 12)
  /-- CXNN RND Vx, NN (R132) -/
  | rnd (x : RegIdx) (nn : Byte)
  /-- DXYN DRAW Vx, Vy, N (R162) -/
  | draw (x y : RegIdx) (n : BitVec 4)
  /-- EX9E SKP Vx (R184) -/
  | skp (x : RegIdx)
  /-- EXA1 SKNP Vx (R185) -/
  | sknp (x : RegIdx)
  /-- FX07 LD Vx, DT (R181) -/
  | ldVxDT (x : RegIdx)
  /-- FX0A LD Vx, K (R186) -/
  | ldVxK (x : RegIdx)
  /-- FX15 LD DT, Vx (R182) -/
  | ldDTVx (x : RegIdx)
  /-- FX18 LD ST, Vx (R183) -/
  | ldSTVx (x : RegIdx)
  /-- FX1E ADD I, Vx (R142) -/
  | addI (x : RegIdx)
  /-- FX29 LD F, Vx (R143) -/
  | ldF (x : RegIdx)
  /-- FX33 LD B, Vx (R144) -/
  | ldB (x : RegIdx)
  /-- FX55 LD [I], Vx (R145) -/
  | storeRegs (x : RegIdx)
  /-- FX65 LD Vx, [I] (R146) -/
  | loadRegs (x : RegIdx)
  deriving DecidableEq, Repr

end Sys2Proof
end

