-- ==== Sys2Proof/WellFormed.lean ====
section
/-! DEFINITION. Sys2Proof/WellFormed.lean: the checks on what comes to the block as plain data. An `Instr` needs none:
its operand types hold exactly the values R82 and R83 admit, so an instruction with a register number above 0xF, a byte
above 0xFF, an address above 0xFFF or a row count above 0xF cannot be written down. The host's inputs are plain lists
and numbers, and are checked here: Sys2Proof/Machine/Events.lean refuses, by name, an event whose input fails its check. -/

namespace Sys2Proof.WellFormed

/-- A program image `load_program` accepts: 0 to 3583 bytes, `length ≤ 0xFFF - 0x200` (R205, R236; decision D15). -/
def image (bytes : List Byte) : Bool := decide (bytes.length ≤ 0xFFF - 0x200)

/-- A value of the parameter FONT: exactly 80 bytes, 16 glyphs of 5 (R7, R8, R31). -/
def font (bytes : List Byte) : Bool := decide (bytes.length = 80)

/-- A key index `key_set` takes: 0 to 15 (R237). -/
def keyIndex (k : Nat) : Bool := decide (k < 16)

end Sys2Proof.WellFormed
end

