-- ==== Sys2Proof/Decode.lean ====
section
/-! DEFINITION. Sys2Proof/Decode.lean: the decoder (R81 to R87), total on every 16-bit word, and the encoder written from
the same formats (R82, R86). -/

namespace Sys2Proof

/-- Why a word decodes to no instruction: it is an unmapped encoding of the named opcode class (R87). The step gives
such a word the meaning R87 states (a no-operation); only the decoder rejects it. -/
inductive Unmapped where
  /-- class 0x0, neither 0x00E0 nor 0x00EE -/
  | class0
  /-- class 0x5 with N other than 0x0 -/
  | class5
  /-- class 0x8 with N in 0x8 to 0xD, or 0xF -/
  | class8
  /-- class 0x9 with N other than 0x0 -/
  | class9
  /-- class 0xE with NN neither 0x9E nor 0xA1 -/
  | classE
  /-- class 0xF with NN none of the nine function codes of R85 -/
  | classF
  deriving DecidableEq, Repr

/-! ### Fields of the word (R81) -/

/-- opClass = bits 15-12. -/
def opClass (w : Word) : BitVec 4 := w.extractLsb' 12 4
/-- X = bits 11-8, as a register number. -/
def xField (w : Word) : RegIdx := (w.extractLsb' 8 4).toFin
/-- Y = bits 7-4, as a register number. -/
def yField (w : Word) : RegIdx := (w.extractLsb' 4 4).toFin
/-- N = bits 3-0. -/
def nField (w : Word) : BitVec 4 := w.extractLsb' 0 4
/-- NN = bits 7-0. -/
def nnField (w : Word) : Byte := w.extractLsb' 0 8
/-- NNN = bits 11-0. -/
def nnnField (w : Word) : BitVec 12 := w.extractLsb' 0 12

/-- A fetched word: the byte at the lower address is the high one (R54). -/
def wordOfBytes (hi lo : Byte) : Word := hi ++ lo
/-- The byte of a word that stands at the lower address. -/
def highByte (w : Word) : Byte := w.extractLsb' 8 8
/-- The byte of a word that stands at the higher address. -/
def lowByte (w : Word) : Byte := w.extractLsb' 0 8

/-! ### The decoder -/

/-- Class 0x0 (R85): two words, told apart from all others by every digit. -/
def decode0 (w : Word) : Except Unmapped Instr :=
  if w = 0x00E0#16 then .ok .cls
  else if w = 0x00EE#16 then .ok .ret
  else .error .class0

/-- Class 0x8 (R85): N selects the operation. -/
def decode8 (w : Word) : Except Unmapped Instr :=
  match nField w with
  | 0x0#4 => .ok (.ldReg (xField w) (yField w))
  | 0x1#4 => .ok (.orReg (xField w) (yField w))
  | 0x2#4 => .ok (.andReg (xField w) (yField w))
  | 0x3#4 => .ok (.xorReg (xField w) (yField w))
  | 0x4#4 => .ok (.addReg (xField w) (yField w))
  | 0x5#4 => .ok (.subReg (xField w) (yField w))
  | 0x6#4 => .ok (.shr (xField w) (yField w))
  | 0x7#4 => .ok (.subnReg (xField w) (yField w))
  | 0xE#4 => .ok (.shl (xField w) (yField w))
  | _ => .error .class8

/-- Class 0xE (R85): NN selects the test. -/
def decodeE (w : Word) : Except Unmapped Instr :=
  match nnField w with
  | 0x9E#8 => .ok (.skp (xField w))
  | 0xA1#8 => .ok (.sknp (xField w))
  | _ => .error .classE

/-- Class 0xF (R85): NN selects the operation. -/
def decodeF (w : Word) : Except Unmapped Instr :=
  match nnField w with
  | 0x07#8 => .ok (.ldVxDT (xField w))
  | 0x0A#8 => .ok (.ldVxK (xField w))
  | 0x15#8 => .ok (.ldDTVx (xField w))
  | 0x18#8 => .ok (.ldSTVx (xField w))
  | 0x1E#8 => .ok (.addI (xField w))
  | 0x29#8 => .ok (.ldF (xField w))
  | 0x33#8 => .ok (.ldB (xField w))
  | 0x55#8 => .ok (.storeRegs (xField w))
  | 0x65#8 => .ok (.loadRegs (xField w))
  | _ => .error .classF

/-- The decode rule (R84, R85): a word selects the one table row whose literal digits it matches, or is unmapped. -/
def decode (w : Word) : Except Unmapped Instr :=
  match opClass w with
  | 0x0#4 => decode0 w
  | 0x1#4 => .ok (.jp (nnnField w))
  | 0x2#4 => .ok (.call (nnnField w))
  | 0x3#4 => .ok (.seImm (xField w) (nnField w))
  | 0x4#4 => .ok (.sneImm (xField w) (nnField w))
  | 0x5#4 => if nField w = 0x0#4 then .ok (.seReg (xField w) (yField w)) else .error .class5
  | 0x6#4 => .ok (.ldImm (xField w) (nnField w))
  | 0x7#4 => .ok (.addImm (xField w) (nnField w))
  | 0x8#4 => decode8 w
  | 0x9#4 => if nField w = 0x0#4 then .ok (.sneReg (xField w) (yField w)) else .error .class9
  | 0xA#4 => .ok (.ldI (nnnField w))
  | 0xB#4 => .ok (.jpV0 (nnnField w))
  | 0xC#4 => .ok (.rnd (xField w) (nnField w))
  | 0xD#4 => .ok (.draw (xField w) (yField w) (nField w))
  | 0xE#4 => decodeE w
  | _ => decodeF w

/-! ### The encoder, one function for each format of R82 -/

/-- Format A: a class digit and a 12-bit address. -/
def encA (op : BitVec 4) (nnn : BitVec 12) : Word := op ++ nnn
/-- Format XI, and format XF with the function code as the byte. -/
def encXI (op : BitVec 4) (x : RegIdx) (nn : Byte) : Word := op ++ (BitVec.ofFin (w := 4) x ++ nn)
/-- Format XYN, and format XYF with the function code as the last digit. -/
def encXYN (op : BitVec 4) (x y : RegIdx) (n : BitVec 4) : Word :=
  op ++ (BitVec.ofFin (w := 4) x ++ (BitVec.ofFin (w := 4) y ++ n))

/-- The word of an instruction (R86). -/
def encode : Instr → Word
  | .cls => 0x00E0#16
  | .ret => 0x00EE#16
  | .jp nnn => encA 0x1#4 nnn
  | .call nnn => encA 0x2#4 nnn
  | .seImm x nn => encXI 0x3#4 x nn
  | .sneImm x nn => encXI 0x4#4 x nn
  | .seReg x y => encXYN 0x5#4 x y 0x0#4
  | .ldImm x nn => encXI 0x6#4 x nn
  | .addImm x nn => encXI 0x7#4 x nn
  | .ldReg x y => encXYN 0x8#4 x y 0x0#4
  | .orReg x y => encXYN 0x8#4 x y 0x1#4
  | .andReg x y => encXYN 0x8#4 x y 0x2#4
  | .xorReg x y => encXYN 0x8#4 x y 0x3#4
  | .addReg x y => encXYN 0x8#4 x y 0x4#4
  | .subReg x y => encXYN 0x8#4 x y 0x5#4
  | .shr x y => encXYN 0x8#4 x y 0x6#4
  | .subnReg x y => encXYN 0x8#4 x y 0x7#4
  | .shl x y => encXYN 0x8#4 x y 0xE#4
  | .sneReg x y => encXYN 0x9#4 x y 0x0#4
  | .ldI nnn => encA 0xA#4 nnn
  | .jpV0 nnn => encA 0xB#4 nnn
  | .rnd x nn => encXI 0xC#4 x nn
  | .draw x y n => encXYN 0xD#4 x y n
  | .skp x => encXI 0xE#4 x 0x9E#8
  | .sknp x => encXI 0xE#4 x 0xA1#8
  | .ldVxDT x => encXI 0xF#4 x 0x07#8
  | .ldVxK x => encXI 0xF#4 x 0x0A#8
  | .ldDTVx x => encXI 0xF#4 x 0x15#8
  | .ldSTVx x => encXI 0xF#4 x 0x18#8
  | .addI x => encXI 0xF#4 x 0x1E#8
  | .ldF x => encXI 0xF#4 x 0x29#8
  | .ldB x => encXI 0xF#4 x 0x33#8
  | .storeRegs x => encXI 0xF#4 x 0x55#8
  | .loadRegs x => encXI 0xF#4 x 0x65#8

/-! ### The table of R86 as masks and matches -/

/-- The mask column of R86. -/
def Instr.mask : Instr → Word
  | .cls | .ret => 0xFFFF#16
  | .jp _ | .call _ | .seImm _ _ | .sneImm _ _ | .ldImm _ _ | .addImm _ _ => 0xF000#16
  | .ldI _ | .jpV0 _ | .rnd _ _ | .draw _ _ _ => 0xF000#16
  | .seReg _ _ | .sneReg _ _ => 0xF00F#16
  | .ldReg _ _ | .orReg _ _ | .andReg _ _ | .xorReg _ _ | .addReg _ _ => 0xF00F#16
  | .subReg _ _ | .shr _ _ | .subnReg _ _ | .shl _ _ => 0xF00F#16
  | .skp _ | .sknp _ | .ldVxDT _ | .ldVxK _ | .ldDTVx _ | .ldSTVx _ => 0xF0FF#16
  | .addI _ | .ldF _ | .ldB _ | .storeRegs _ | .loadRegs _ => 0xF0FF#16

/-- The match column of R86. -/
def Instr.matchWord : Instr → Word
  | .cls => 0x00E0#16
  | .ret => 0x00EE#16
  | .jp _ => 0x1000#16
  | .call _ => 0x2000#16
  | .seImm _ _ => 0x3000#16
  | .sneImm _ _ => 0x4000#16
  | .seReg _ _ => 0x5000#16
  | .ldImm _ _ => 0x6000#16
  | .addImm _ _ => 0x7000#16
  | .ldReg _ _ => 0x8000#16
  | .orReg _ _ => 0x8001#16
  | .andReg _ _ => 0x8002#16
  | .xorReg _ _ => 0x8003#16
  | .addReg _ _ => 0x8004#16
  | .subReg _ _ => 0x8005#16
  | .shr _ _ => 0x8006#16
  | .subnReg _ _ => 0x8007#16
  | .shl _ _ => 0x800E#16
  | .sneReg _ _ => 0x9000#16
  | .ldI _ => 0xA000#16
  | .jpV0 _ => 0xB000#16
  | .rnd _ _ => 0xC000#16
  | .draw _ _ _ => 0xD000#16
  | .skp _ => 0xE09E#16
  | .sknp _ => 0xE0A1#16
  | .ldVxDT _ => 0xF007#16
  | .ldVxK _ => 0xF00A#16
  | .ldDTVx _ => 0xF015#16
  | .ldSTVx _ => 0xF018#16
  | .addI _ => 0xF01E#16
  | .ldF _ => 0xF029#16
  | .ldB _ => 0xF033#16
  | .storeRegs _ => 0xF055#16
  | .loadRegs _ => 0xF065#16

/-- The instruction the decoder reads from a word given as spec/opcode_table.json numbers it: bit 0 is the least
significant bit of the one 16-bit word, every bit from `nbits` up is 0. The word is laid out as the block stores it
(high byte first, R54) and read back before it is decoded. -/
def decodeTableWord (nbits w : Nat) : Option Instr :=
  let word := BitVec.ofNat 16 (w % 2 ^ nbits)
  match decode (wordOfBytes (highByte word) (lowByte word)) with
  | .ok i => some i
  | .error _ => none

end Sys2Proof
end

