-- ==== Sys2Proof/Machine/State.lean ====
section
/-! DEFINITION. Sys2Proof/Machine/State.lean: the complete state of the block (R20), its fault status (R32), the reasons a
step can stop, and the state after reset (R34). -/

namespace Sys2Proof.Machine

/-- FAULT, the fault status (R32, R200; the codes are decision D4). -/
inductive FaultStatus where
  /-- code 0: no fault so far -/
  | none
  /-- code 1: a byte address of a fetch or data access is above 0xFFF (R201) -/
  | addressFault
  /-- code 2: CALL with 16 entries on the stack (R202) -/
  | stackOverflow
  /-- code 3: RET with none (R204) -/
  | stackUnderflow
  deriving DecidableEq, Repr

/-- Why the machine has no next state. -/
inductive Fault where
  /-- Raised by `step` and by `tick` while FAULT is not `none`: the block has no such transition until the `reset` event
  (R208, treatment "stuck" of U16). Safe: the model stops where the spec gives the block no move. -/
  | stopped (status : FaultStatus)
  deriving DecidableEq, Repr

/-- Why an instruction or an event is given no meaning. -/
inductive Refusal where
  /-- An instruction whose meaning is not written yet. Raised by no arm of this model. Safe. -/
  | notModelled (mnemonic : String)
  /-- LoadError: raised by the `load_program` event for an image of more than 3583 bytes, which the spec refuses
  (R205, R236). Safe: nothing is written. -/
  | loadError
  /-- Raised by the `load_program` event outside the boot state, which the spec leaves unsaid (R236, U18). Safe. -/
  | loadOutsideBoot
  /-- Raised by the `key_set` event for a key index above 15, which is no event of the block (R237). Safe. -/
  | noSuchKey
  /-- Raised by the `reset` event for a FONT that is not 80 bytes long, which is no value of the parameter (R8). Safe. -/
  | notAFont
  deriving DecidableEq, Repr

/-- MEM as the bytes that differ from what `unlistedByte` gives, by strictly rising address (Ops.lean). -/
abbrev Memory := List Host.Cell

/-- The display buffer: 32 rows of 64 one-bit pixels (R29). -/
abbrev FrameBuffer := Vector (BitVec 64) 32

/-- The complete state of the block (R20). `draws` is the model's own, not the spec's (log entry 1). -/
structure State where
  /-- V0 to VF, sixteen 8-bit general registers; VF is also the flag (R21, R22) -/
  v : Vector Byte 16
  /-- I, the 16-bit index register (R26) -/
  i : Word
  /-- PC, the 16-bit program counter (R24) -/
  pc : Word
  /-- STACK, sixteen 16-bit return-address entries (R27) -/
  stack : Vector Word 16
  /-- SP, the number of entries in use, 0 to 16 (R27) -/
  sp : Fin 17
  /-- DT, the 8-bit delay timer (R28) -/
  dt : Byte
  /-- ST, the 8-bit sound timer (R28) -/
  st : Byte
  /-- FB, the 64 by 32 grid of one-bit pixels, row-major: bit x of entry y is the pixel of column x and row y, the
  spec's `FB[y*64 + x]` (R29) -/
  fb : FrameBuffer
  /-- KEY, sixteen one-bit key flags: bit k is 1 while key k is held down (R30) -/
  key : BitVec 16
  /-- MEM, 4096 bytes (R31) -/
  mem : Memory
  /-- FAULT (R32) -/
  fault : FaultStatus
  /-- how many bytes the random source has presented (log entry 1) -/
  draws : Nat
  deriving DecidableEq, Repr

/-- The state after reset (R34, R230) under the default FONT: every register, timer, pixel, key flag and stack entry
zero, PC at 0x0200, FAULT none, and MEM listing nothing, so that every byte reads as `unlistedByte` gives it. -/
def State.reset : State where
  v := Vector.replicate 16 0
  i := 0
  pc := 0x0200
  stack := Vector.replicate 16 0
  sp := 0
  dt := 0
  st := 0
  fb := Vector.replicate 32 0
  key := 0
  mem := []
  fault := .none
  draws := 0

/-- What one step of the block answers. -/
abbrev Result := Host.Outcome State Fault Refusal

end Sys2Proof.Machine
end

