-- ==== Sys2Proof/Machine/Font.lean ====
section
/-! DEFINITION. Sys2Proof/Machine/Font.lean: the default value of the parameter FONT (R31) and the byte an address reads
as when nothing has written it. -/

namespace Sys2Proof.Machine

/-- The default FONT, the table of R31 (G1; decision D14). It is the parameter's default and no rule depends on it; the
`reset` event takes any other (log entry 2). -/
def defaultFont : List Byte :=
  [0xF0, 0x90, 0x90, 0x90, 0xF0] ++ [0x20, 0x60, 0x20, 0x20, 0x70] ++
  [0xF0, 0x10, 0xF0, 0x80, 0xF0] ++ [0xF0, 0x10, 0xF0, 0x10, 0xF0] ++
  [0x90, 0x90, 0xF0, 0x10, 0x10] ++ [0xF0, 0x80, 0xF0, 0x10, 0xF0] ++
  [0xF0, 0x80, 0xF0, 0x90, 0xF0] ++ [0xF0, 0x10, 0x20, 0x40, 0x40] ++
  [0xF0, 0x90, 0xF0, 0x90, 0xF0] ++ [0xF0, 0x90, 0xF0, 0x10, 0xF0] ++
  [0xF0, 0x90, 0xF0, 0x90, 0x90] ++ [0xE0, 0x90, 0xE0, 0x90, 0xE0] ++
  [0xF0, 0x80, 0x80, 0x80, 0xF0] ++ [0xE0, 0x90, 0x90, 0x90, 0xE0] ++
  [0xF0, 0x80, 0xF0, 0x80, 0xF0] ++ [0xF0, 0x80, 0xF0, 0x80, 0x80]

/-- What an address that `State.mem` does not list reads as: the reset contents, FONT at 0x000 to 0x04F and zero above
(R31, R34). -/
def unlistedByte (a : Nat) : Byte := defaultFont.getD a 0

end Sys2Proof.Machine
end

