-- ==== Sys2Proof/Machine/Ops.lean ====
section
/-! DEFINITION. Sys2Proof/Machine/Ops.lean: the named operations over memory, registers, program counter, stack and fault
status that every meaning is written over. -/

namespace Sys2Proof.Machine

/-! ### Memory (R50 to R60) -/

/-- The byte at address `a`. -/
def readByte : Memory → Nat → Byte
  | [], a => unlistedByte a
  | (b, u) :: m, a => if a = b then u else readByte m a

/-- Put a cell in its place in a list that does not hold its address. -/
def insertCell : Memory → Nat → Byte → Memory
  | [], a, u => [(a, u)]
  | (b, t) :: m, a, u => if a < b then (a, u) :: (b, t) :: m else (b, t) :: insertCell m a u

/-- Store byte `u` at address `a`. A byte equal to what the unlisted address reads as is not listed. -/
def writeByte (m : Memory) (a : Nat) (u : Byte) : Memory :=
  let others := m.filter (fun c => decide (c.1 ≠ a))
  if u = unlistedByte a then others else insertCell others a u

/-- Store the bytes of a list at ascending addresses from `a` (R57). -/
def writeBytes : Memory → Nat → List Byte → Memory
  | m, _, [] => m
  | m, a, u :: us => writeBytes (writeByte m a u) (a + 1) us

/-- The `n` bytes at ascending addresses from `a` (R57). -/
def readBytes (m : Memory) (a : Nat) : Nat → List Byte
  | 0 => []
  | n + 1 => readByte m a :: readBytes m (a + 1) n

/-- The canonical form: addresses strictly rising and inside the 4096 bytes, and no cell that an unlisted address would
read as. -/
def Memory.wf (m : Memory) : Bool :=
  decide (m.Pairwise (fun c d => c.1 < d.1)) && m.all (fun c => decide (c.1 ≤ 0xFFF) && decide (c.2 ≠ unlistedByte c.1))

/-- The range check of R52 for an access of `n` bytes from `a`, over the unbounded integers: no byte address is above
0xFFF. An access of no bytes (DXYN with N = 0) always passes. -/
def inRange (a n : Nat) : Bool := decide (n = 0 ∨ a + n - 1 ≤ 0xFFF)

/-! ### Faults (R203) -/

/-- Fault entry, the meaning of `raise` (R203): FAULT takes the code and everything else, PC included, is as it was. The
spec has no return from a fault: the only way out is the `reset` event (R208). -/
def raise (f : FaultStatus) (s : State) : Result := .next { s with fault := f }

/-! ### Registers and program counter (R21 to R26) -/

/-- `V[x]` -/
def State.getV (s : State) (x : RegIdx) : Byte := s.v[x.val]
/-- `V[x] <- b` -/
def State.setV (s : State) (x : RegIdx) (b : Byte) : State := { s with v := s.v.set x.val b }
/-- `V[0xF] <- 1` or `0` (R22): the flag write. -/
def State.setFlag (s : State) (f : Bool) : State := s.setV VF (if f then 0x01 else 0x00)
/-- `I <- a` -/
def State.setI (s : State) (a : Word) : State := { s with i := a }
/-- `PC <- a`: jump, call, return (R24). -/
def State.jumpTo (s : State) (a : Word) : State := { s with pc := a }
/-- `PC <- trunc_16(PC + 2)` (R24). -/
def State.advance (s : State) : State := { s with pc := s.pc + 2 }
/-- `PC <- trunc_16(PC + 4)` when the skip condition holds, else `PC <- trunc_16(PC + 2)` (R24). -/
def State.skipIf (s : State) (c : Bool) : State := { s with pc := if c then s.pc + 4 else s.pc + 2 }
/-- `DT <- b` -/
def State.setDT (s : State) (b : Byte) : State := { s with dt := b }
/-- `ST <- b` -/
def State.setST (s : State) (b : Byte) : State := { s with st := b }
/-- FB takes a whole new buffer. -/
def State.setFB (s : State) (fb : FrameBuffer) : State := { s with fb := fb }
/-- MEM takes new contents. -/
def State.setMem (s : State) (m : Memory) : State := { s with mem := m }
/-- The random source goes on to its next draw (log entry 1). -/
def State.nextDraw (s : State) : State := { s with draws := s.draws + 1 }

/-- Put the bytes of a list into the registers from number `k` on (FX65, R146). -/
def setRegs : Vector Byte 16 → Nat → List Byte → Vector Byte 16
  | v, _, [] => v
  | v, k, u :: us => setRegs (v.setIfInBounds k u) (k + 1) us

/-- The register file takes new contents. -/
def State.setRegs (s : State) (us : List Byte) : State := { s with v := Machine.setRegs s.v 0 us }

/-! ### The display buffer (R29, R160) -/

/-- The pixel of column `x` and row `y`, both wrapped (R162). -/
def pixelAt (fb : FrameBuffer) (x y : Nat) : Bool := (fb[y % 32]'(Nat.mod_lt _ (by decide))).getLsbD (x % 64)

/-- `FB[p]`, p = 0 to 2047: column `p mod 64`, row `p div 64` (R29). -/
def State.pixel (s : State) (p : Nat) : Bool := pixelAt s.fb (p % 64) (p / 64)

/-- Turn the pixel of column `x` and row `y` over, both wrapped. -/
def flipPixel (fb : FrameBuffer) (x y : Nat) : FrameBuffer :=
  fb.set (y % 32) (fb[y % 32]'(Nat.mod_lt _ (by decide)) ^^^ BitVec.twoPow 64 (x % 64)) (Nat.mod_lt _ (by decide))

/-! ### The call stack (R27) -/

/-- `STACK[k]` -/
def State.stackEntry (s : State) (k : Fin 16) : Word := s.stack[k.val]

/-- Push (2NNN only): none when all 16 entries are in use. -/
def State.push (s : State) (a : Word) : Option State :=
  if h : s.sp.val < 16 then
    some { s with stack := s.stack.set s.sp.val a, sp := ⟨s.sp.val + 1, by omega⟩ }
  else none

/-- Pop (00EE only): none when no entry is in use; the popped entry keeps its bits. -/
def State.pop (s : State) : Option (Word × State) :=
  if h : s.sp.val = 0 then none
  else some (s.stack[s.sp.val - 1], { s with sp := ⟨s.sp.val - 1, by omega⟩ })

/-! ### Fetch (R54, R80) -/

/-- The instruction word at PC, high byte first; none when PC + 1 is above 0xFFF. PC need not be even (R56). -/
def fetchWord (s : State) : Option Word :=
  if inRange s.pc.toNat 2 then
    some (wordOfBytes (readByte s.mem s.pc.toNat) (readByte s.mem (s.pc.toNat + 1)))
  else none

/-- The word stored where the next fetch reads it. -/
def storeWord (m : Memory) (a : Nat) (w : Word) : Memory := writeBytes m a [highByte w, lowByte w]

end Sys2Proof.Machine
end

