-- ==== Sys2Proof/Machine/Flags.lean ====
section
/-! DEFINITION. Sys2Proof/Machine/Flags.lean: the flag computations (R22, R133), each a truth value that `State.setFlag`
writes to VF. The sixth, the collision bit of DXYN, is computed by the compositor (Display.lean). -/

namespace Sys2Proof.Machine

/-- 8XY4: the true sum exceeds 255 (R127). -/
def carryOut (x y : Byte) : Bool := decide (x.toNat + y.toNat > 255)

/-- 8XY5 and 8XY7: the minuend is strictly greater than the subtrahend (R128, R130). -/
def noBorrow (minuend subtrahend : Byte) : Bool := decide (minuend.toNat > subtrahend.toNat)

/-- 8XY6: the bit shifted out at the bottom (R129). -/
def lowBit (x : Byte) : Bool := x.getLsbD 0

/-- 8XYE: the bit shifted out at the top (R131). -/
def highBit (x : Byte) : Bool := x.getLsbD 7

end Sys2Proof.Machine
end

