-- ==== Sys2Proof/Machine/Operands.lean ====
section
/-! DEFINITION. Sys2Proof/Machine/Operands.lean: the operand forms (R58, R83) that are more than a field or a register. -/

namespace Sys2Proof.Machine

/-- NNN zero-extended to 16 bits: a target, or the value of I (R83). -/
def addrOperand (nnn : BitVec 12) : Word := nnn.setWidth 16

/-- A register's value zero-extended to 16 bits: the addend of BNNN and FX1E (R104, R142). -/
def zext16 (b : Byte) : Word := b.setWidth 16

/-- The base address of the glyph a register names, the whole 8-bit value times 5 (R143). -/
def glyphAddr (b : Byte) : Word := zext16 b * 5

/-- The decimal digits of a byte: hundreds, tens, ones (R144). -/
def bcdDigits (b : Byte) : List Byte :=
  [BitVec.ofNat 8 (b.toNat / 100), BitVec.ofNat 8 (b.toNat / 10 % 10), BitVec.ofNat 8 (b.toNat % 10)]

/-- The registers V0 to VX, V0 first (R145). -/
def State.regRange (s : State) (x : RegIdx) : List Byte := s.v.toList.take (x.val + 1)

/-- The sprite of `n` rows at I (R58, R162). -/
def State.spriteRows (s : State) (n : Nat) : List Byte := readBytes s.mem s.i.toNat n

/-- Whether the key whose index is `k` is down; an index above 0xF names no key and reads as not pressed (R184, R187). -/
def State.keyDown (s : State) (k : Byte) : Bool := decide (k.toNat ≤ 0xF) && s.key.getLsbD k.toNat

/-- The sixteen key indices in rising order. -/
def allKeys : List RegIdx := [0, 1, 2, 3, 4, 5, 6, 7, 8, 9, 10, 11, 12, 13, 14, 15]

/-- The lowest-indexed key that is down, or none (R186, R215). -/
def State.firstPressed (s : State) : Option RegIdx := allKeys.find? (fun k => s.key.getLsbD k.val)

end Sys2Proof.Machine
end

