-- ==== Sys2Proof/Machine/Alu.lean ====
section
/-! DEFINITION. Sys2Proof/Machine/Alu.lean: the register load, arithmetic and logic instructions (R120 to R133). -/

namespace Sys2Proof.Machine

/-- Write a result and go on: the instructions that leave VF alone unless X names it (R120). -/
def writeResult (s : State) (x : RegIdx) (b : Byte) : Result := .next (s.setV x b).advance

/-- Write a result, then the flag, and go on (R23, R120): with X = 0xF the flag stands. The operands were read by the
caller, before either write. -/
def writeResultAndFlag (s : State) (x : RegIdx) (b : Byte) (flag : Bool) : Result :=
  .next ((s.setV x b).setFlag flag).advance

/-- 6XNN LD Vx, NN (R121). -/
def execLdImm (x : RegIdx) (nn : Byte) (s : State) : Result := writeResult s x nn

/-- 7XNN ADD Vx, NN (R122): no carry flag. -/
def execAddImm (x : RegIdx) (nn : Byte) (s : State) : Result := writeResult s x (s.getV x + nn)

/-- 8XY0 LD Vx, Vy (R123). -/
def execLdReg (x y : RegIdx) (s : State) : Result := writeResult s x (s.getV y)

/-- 8XY1 OR Vx, Vy (R124). -/
def execOrReg (x y : RegIdx) (s : State) : Result := writeResult s x (s.getV x ||| s.getV y)

/-- 8XY2 AND Vx, Vy (R125). -/
def execAndReg (x y : RegIdx) (s : State) : Result := writeResult s x (s.getV x &&& s.getV y)

/-- 8XY3 XOR Vx, Vy (R126). -/
def execXorReg (x y : RegIdx) (s : State) : Result := writeResult s x (s.getV x ^^^ s.getV y)

/-- 8XY4 ADD Vx, Vy (R127). -/
def execAddReg (x y : RegIdx) (s : State) : Result :=
  writeResultAndFlag s x (s.getV x + s.getV y) (carryOut (s.getV x) (s.getV y))

/-- 8XY5 SUB Vx, Vy (R128). -/
def execSubReg (x y : RegIdx) (s : State) : Result :=
  writeResultAndFlag s x (s.getV x - s.getV y) (noBorrow (s.getV x) (s.getV y))

/-- 8XY6 SHR Vx (R129): V[Y] is neither read nor written. -/
def execShr (x _y : RegIdx) (s : State) : Result := writeResultAndFlag s x (s.getV x >>> 1) (lowBit (s.getV x))

/-- 8XY7 SUBN Vx, Vy (R130). -/
def execSubnReg (x y : RegIdx) (s : State) : Result :=
  writeResultAndFlag s x (s.getV y - s.getV x) (noBorrow (s.getV y) (s.getV x))

/-- 8XYE SHL Vx (R131): V[Y] is neither read nor written. -/
def execShl (x _y : RegIdx) (s : State) : Result := writeResultAndFlag s x (s.getV x <<< 1) (highBit (s.getV x))

/-- CXNN with the byte the random source presents as an argument (R132). -/
def execRndWith (r : Byte) (x : RegIdx) (nn : Byte) (s : State) : Result := writeResult s.nextDraw x (r &&& nn)

/-- CXNN RND Vx, NN (R132): the byte is the source's next draw, a free value (log entry 1). -/
def execRnd (x : RegIdx) (nn : Byte) (s : State) : Result := execRndWith (Config.rand8 s.draws) x nn s

end Sys2Proof.Machine
end

