-- ==== Sys2Proof/Machine/Control.lean ====
section
/-! DEFINITION. Sys2Proof/Machine/Control.lean: the control transfer instructions (R100 to R108) and the no-operation of an
unmapped word (R87). -/

namespace Sys2Proof.Machine

/-- 00EE RET (R101, R204): the popped value is the new PC, used as it is. -/
def execRet (s : State) : Result :=
  match s.pop with
  | some (a, t) => .next (t.jumpTo a)
  | none => raise .stackUnderflow s

/-- 1NNN JP NNN (R102). -/
def execJp (nnn : BitVec 12) (s : State) : Result := .next (s.jumpTo (addrOperand nnn))

/-- 2NNN CALL NNN (R103, R202): pushes the address of the next instruction. -/
def execCall (nnn : BitVec 12) (s : State) : Result :=
  match s.push (s.pc + 2) with
  | some t => .next (t.jumpTo (addrOperand nnn))
  | none => raise .stackOverflow s

/-- 3XNN SE Vx, NN (R105). -/
def execSeImm (x : RegIdx) (nn : Byte) (s : State) : Result := .next (s.skipIf (s.getV x == nn))

/-- 4XNN SNE Vx, NN (R106). -/
def execSneImm (x : RegIdx) (nn : Byte) (s : State) : Result := .next (s.skipIf (s.getV x != nn))

/-- 5XY0 SE Vx, Vy (R107). -/
def execSeReg (x y : RegIdx) (s : State) : Result := .next (s.skipIf (s.getV x == s.getV y))

/-- 9XY0 SNE Vx, Vy (R108). -/
def execSneReg (x y : RegIdx) (s : State) : Result := .next (s.skipIf (s.getV x != s.getV y))

/-- BNNN JP V0, NNN (R104): the register is always V0. -/
def execJpV0 (nnn : BitVec 12) (s : State) : Result := .next (s.jumpTo (addrOperand nnn + zext16 (s.getV 0)))

/-- An unmapped word (R87): a no-operation that advances PC. -/
def execUnmapped (s : State) : Result := .next s.advance

end Sys2Proof.Machine
end

