-- ==== Sys2Proof/Machine/Display.lean ====
section
/-! DEFINITION. Sys2Proof/Machine/Display.lean: the display instructions, the XOR compositor and the collision detector
(R160 to R164). -/

namespace Sys2Proof.Machine

/-- The display buffer in the course of one draw, and whether a set pixel has been turned off so far. -/
structure Canvas where
  fb : FrameBuffer
  collision : Bool
  deriving DecidableEq, Repr

/-- One sprite pixel at column `x` and row `y`, both wrapped: `FB[p] <- FB[p] ^ bit`, and a collision when both were 1
(R162). -/
def plot (c : Canvas) (x y : Nat) (bit : Bool) : Canvas :=
  if bit then ⟨flipPixel c.fb x y, c.collision || pixelAt c.fb x y⟩ else c

/-- The pixels of one sprite row from column `j` on: column j of the row is bit `7 - j` of its byte (R160). -/
def plotRow (c : Canvas) (x0 y : Nat) (b : Byte) : List Nat → Canvas
  | [] => c
  | j :: js => plotRow (plot c (x0 + j) y (b.getLsbD (7 - j))) x0 y b js

/-- The eight columns of a sprite row. -/
def columns : List Nat := [0, 1, 2, 3, 4, 5, 6, 7]

/-- The rows of a sprite, the first at row `y` and each next one row on (R162). -/
def plotRows (c : Canvas) (x0 y : Nat) : List Byte → Canvas
  | [] => c
  | b :: bs => plotRows (plotRow c x0 y b columns) x0 (y + 1) bs

/-- The display buffer with every pixel 0 (R34, R161). -/
def blankScreen : FrameBuffer := Vector.replicate 32 0

/-- 00E0 CLS (R161). -/
def execCls (s : State) : Result := .next (s.setFB blankScreen).advance

/-- DXYN DRAW Vx, Vy, N (R162): the coordinates are read before VF is written, and VF is written last. -/
def execDraw (x y : RegIdx) (n : BitVec 4) (s : State) : Result :=
  if inRange s.i.toNat n.toNat then
    let c := plotRows ⟨s.fb, false⟩ (s.getV x).toNat (s.getV y).toNat (s.spriteRows n.toNat)
    .next ((s.setFB c.fb).setFlag c.collision).advance
  else raise .addressFault s

end Sys2Proof.Machine
end

