-- ==== Sys2Proof/Machine/IndexMem.lean ====
section
/-! DEFINITION. Sys2Proof/Machine/IndexMem.lean: the index register and memory instructions (R140 to R146). Each checks its
whole range before it writes anything (R52), so a faulting one writes nothing. -/

namespace Sys2Proof.Machine

/-- ANNN LD I, NNN (R141). -/
def execLdI (nnn : BitVec 12) (s : State) : Result := .next (s.setI (addrOperand nnn)).advance

/-- FX1E ADD I, Vx (R142): modulo 2^16, never masked to 12 bits, no flag. -/
def execAddI (x : RegIdx) (s : State) : Result := .next (s.setI (s.i + zext16 (s.getV x))).advance

/-- FX29 LD F, Vx (R143). -/
def execLdF (x : RegIdx) (s : State) : Result := .next (s.setI (glyphAddr (s.getV x))).advance

/-- FX33 LD B, Vx (R144): I does not move. -/
def execLdB (x : RegIdx) (s : State) : Result :=
  if inRange s.i.toNat 3 then .next (s.setMem (writeBytes s.mem s.i.toNat (bcdDigits (s.getV x)))).advance
  else raise .addressFault s

/-- `I <- trunc_16(I + X + 1)`, the move of I that FX55 and FX65 make after the copy (R145, R146). -/
def State.bumpI (s : State) (x : RegIdx) : State := s.setI (s.i + BitVec.ofNat 16 (x.val + 1))

/-- FX55 LD [I], Vx (R145). -/
def execStoreRegs (x : RegIdx) (s : State) : Result :=
  if inRange s.i.toNat (x.val + 1) then
    .next ((s.setMem (writeBytes s.mem s.i.toNat (s.regRange x))).bumpI x).advance
  else raise .addressFault s

/-- FX65 LD Vx, [I] (R146). -/
def execLoadRegs (x : RegIdx) (s : State) : Result :=
  if inRange s.i.toNat (x.val + 1) then
    .next ((s.setRegs (readBytes s.mem s.i.toNat (x.val + 1))).bumpI x).advance
  else raise .addressFault s

end Sys2Proof.Machine
end

