-- ==== Sys2Proof/Machine/TimerKey.lean ====
section
/-! DEFINITION. Sys2Proof/Machine/TimerKey.lean: the timer and key instructions (R180 to R187). -/

namespace Sys2Proof.Machine

/-- FX07 LD Vx, DT (R181). -/
def execLdVxDT (x : RegIdx) (s : State) : Result := .next (s.setV x s.dt).advance

/-- FX15 LD DT, Vx (R182). -/
def execLdDTVx (x : RegIdx) (s : State) : Result := .next (s.setDT (s.getV x)).advance

/-- FX18 LD ST, Vx (R183): the instruction itself pulses no tone. -/
def execLdSTVx (x : RegIdx) (s : State) : Result := .next (s.setST (s.getV x)).advance

/-- EX9E SKP Vx (R184). -/
def execSkp (x : RegIdx) (s : State) : Result := .next (s.skipIf (s.keyDown (s.getV x)))

/-- EXA1 SKNP Vx (R185). -/
def execSknp (x : RegIdx) (s : State) : Result := .next (s.skipIf (!s.keyDown (s.getV x)))

/-- FX0A LD Vx, K (R186): with no key down nothing changes, PC included; else the lowest key down. -/
def execLdVxK (x : RegIdx) (s : State) : Result :=
  match s.firstPressed with
  | some k => .next (s.setV x (BitVec.ofNat 8 k.val)).advance
  | none => .next s

end Sys2Proof.Machine
end

