-- ==== Sys2Proof/Machine/Step.lean ====
section
/-! DEFINITION. Sys2Proof/Machine/Step.lean: the `step` event, one atomic fetch, decode and execute (R80, R207, R208). -/

namespace Sys2Proof.Machine

/-- Execute a fetched word: the instruction it encodes, or the no-operation of an unmapped one (R84, R87). Decoding
depends on the word alone. -/
def runWord (w : Word) (s : State) : Host.Outcome State Fault Refusal :=
  match decode w with
  | .ok i => exec i s
  | .error _ => execUnmapped s

/-- One `step`. The fetch's range check comes first (R207); while FAULT is not `none` there is no step (R208). -/
def step (s : State) : Host.Outcome State Fault Refusal :=
  if s.fault = .none then
    match fetchWord s with
    | some w => runWord w s
    | none => raise .addressFault s
  else .fault (.stopped s.fault)

/-- `s` with an instruction word stored where the next step fetches it, high byte first (R54). `w` is numbered as
spec/opcode_table.json numbers it and every bit from `nbits` up is 0. The fetch needs two things a state can lack: a PC
it can fetch from (PC is put to 0x0200, the entry point, only when it is above 0x0FFE) and FAULT `none`. It stands for
the load of a program from outside the machine (log entry 3). -/
def State.withFetchWord (s : State) (nbits w : Nat) : State :=
  let word := BitVec.ofNat 16 (w % 2 ^ nbits)
  let pc := if inRange s.pc.toNat 2 then s.pc else 0x0200
  { s with pc := pc, fault := .none, mem := storeWord s.mem pc.toNat word }

end Sys2Proof.Machine
end

