-- ==== Sys2Proof/Machine/Events.lean ====
section
/-! DEFINITION. Sys2Proof/Machine/Events.lean: the block's whole interface as atomic events (R5, R62, R235): `reset`,
`load_program`, `step`, `tick`, `key_set`, the outputs the host reads, and the driver's schedule. -/

namespace Sys2Proof.Machine

/-! ### The events' effects on the state -/

/-- The state the `reset` event leaves (R34, R230) for a value of the parameter FONT. The random source is not part of
the block and goes on from where it was (log entry 1). -/
def resetWith (font : List Byte) (draws : Nat) : State :=
  { State.reset with mem := writeBytes State.reset.mem 0 font, draws := draws }

/-- `load_program(bytes)` in the boot state (R205, R236): the image is copied to 0x200 and nothing else changes. -/
def loadProgram (bytes : List Byte) (s : State) : Result :=
  if WellFormed.image bytes then .next (s.setMem (writeBytes s.mem 0x200 bytes)) else .refused .loadError

/-- A timer after a tick: one less, floor at 0 (R28, R211). -/
def countDown (b : Byte) : Byte := if b = 0 then 0 else b - 1

/-- `tick` (R211): both timers count down, each on its own; no transition while FAULT is not `none` (R208). -/
def tick (s : State) : Result :=
  if s.fault = .none then .next { s with dt := countDown s.dt, st := countDown s.st } else .fault (.stopped s.fault)

/-- The tone output of a `tick` that finds the block in state `s` (R211, R217): one pulse when ST goes from 1 to 0. -/
def tickTone (s : State) : Bool := decide (s.fault = .none) && decide (s.st = 1)

/-- `key_set(k, pressed)` (R237): `KEY[k] <- pressed`. -/
def keySet (k : Nat) (pressed : Bool) (s : State) : State :=
  { s with key := if pressed then s.key ||| BitVec.twoPow 16 k else s.key &&& ~~~(BitVec.twoPow 16 k) }

/-! ### The outputs the host reads (R214, R32) -/

/-- The render port: all 2048 pixels, `FB[0]` first (R214). Reading has no effect on the block. -/
def renderPort (s : State) : List Bool := (List.range 2048).map s.pixel

/-- FAULT as its code (R32, R200). -/
def faultCode (s : State) : Nat :=
  match s.fault with
  | .none => 0
  | .addressFault => 1
  | .stackOverflow => 2
  | .stackUnderflow => 3

/-! ### Events -/

/-- The events of R235 that the host and the driver issue. Their inputs are plain data, checked by
Sys2Proof/WellFormed.lean. -/
inductive Event where
  /-- `reset`, with the parameter FONT -/
  | reset (font : List Byte)
  /-- `load_program(bytes)` -/
  | loadProgram (bytes : List Byte)
  /-- `step` -/
  | step
  /-- `tick` -/
  | tick
  /-- `key_set(k, pressed)` -/
  | keySet (k : Nat) (pressed : Bool)
  deriving DecidableEq, Repr

/-- The block and whether it is in the boot state, between `reset` and the first `step` (R13). The boot state is a fact
about the events so far and no state of the block (R20), so it stands beside `State` (log entry 4). -/
structure Session where
  machine : State
  booting : Bool
  deriving DecidableEq, Repr

/-- What an accepted event leaves: the session after it, and the tone output during it. -/
structure Reaction where
  session : Session
  tone : Bool
  deriving DecidableEq, Repr

/-- A silent reaction, from the state an event's effect leaves. -/
def silently (booting tone : Bool) : Result → Host.Outcome Reaction Fault Refusal
  | .next s => .next ⟨⟨s, booting⟩, tone⟩
  | .fault f => .fault f
  | .refused r => .refused r

/-- One event (R235). An event that is not enabled, or that the spec refuses, answers a fault or a refusal. -/
def Session.issue (e : Event) (p : Session) : Host.Outcome Reaction Fault Refusal :=
  match e with
  | .reset font =>
    if WellFormed.font font then .next ⟨⟨resetWith font p.machine.draws, true⟩, false⟩ else .refused .notAFont
  | .loadProgram bytes =>
    if p.booting then silently true false (loadProgram bytes p.machine) else .refused .loadOutsideBoot
  | .step => silently false false (Machine.step p.machine)
  | .tick => silently p.booting (tickTone p.machine) (Machine.tick p.machine)
  | .keySet k pressed =>
    if WellFormed.keyIndex k then .next ⟨⟨Machine.keySet k pressed p.machine, p.booting⟩, false⟩
    else .refused .noSuchKey

/-- The session after an event was issued: an event that was not accepted leaves everything as it was (R205, R208,
R239). -/
def Session.after (e : Event) (p : Session) : Session :=
  match p.issue e with
  | .next r => r.session
  | .fault _ => p
  | .refused _ => p

/-- The tone output during an event: none unless the event was accepted. -/
def Session.toneOf (e : Event) (p : Session) : Bool :=
  match p.issue e with
  | .next r => r.tone
  | .fault _ => false
  | .refused _ => false

/-- A run of the block: one sequence of events, none overlapping (R62). -/
def Session.run : List Event → Session → Session
  | [], p => p
  | e :: es, p => Session.run es (p.after e)

/-- How many times the tone output was pulsed in a run (R217). -/
def Session.pulses : List Event → Session → Nat
  | [], _ => 0
  | e :: es, p => (if p.toneOf e then 1 else 0) + Session.pulses es (p.after e)

/-! ### The driver's schedule (R238) -/

/-- One frame of the driver, a burst of steps and one tick; `stepsPerFrame` is the open parameter STEPS_PER_FRAME (R8). -/
def frameEvents (stepsPerFrame : Nat) : List Event := List.replicate stepsPerFrame Event.step ++ [Event.tick]

/-- The driver's schedule over a number of frames. -/
def driverEvents (stepsPerFrame : Nat) : Nat → List Event
  | 0 => []
  | n + 1 => frameEvents stepsPerFrame ++ driverEvents stepsPerFrame n

end Sys2Proof.Machine
end

