-- ==== Sys2Proof/Safety.lean ====
section
/-! DEFINITION. Sys2Proof/Safety.lean: the terms the claims are stated in: the invariant, the resting state, frames, the
fault a step raises, the pixels a sprite covers. -/

namespace Sys2Proof.Machine

/-- The invariant every step and every event keeps. Memory is in its canonical form; PC is where R25 says a run can bring
it, at most 0x10FE; every stacked return address is at most 0x1000 (R103). (`State.sp` and the register numbers keep
their ranges by their types.) -/
def Inv (s : State) : Prop :=
  Memory.wf s.mem = true ∧ s.pc.toNat ≤ 0x10FE ∧ ∀ k, (s.stackEntry k).toNat ≤ 0x1000

/-- The resting state programs end in by convention (R240): PC holds the address of a jump to itself. -/
def AtRest (s : State) : Prop :=
  s.fault = .none ∧ ∃ w, fetchWord s = some w ∧ decode w = .ok (.jp (nnnField w)) ∧ (nnnField w).toNat = s.pc.toNat

/-! ### Frames -/

/-- The pieces of State, for saying which of them an instruction may change. -/
inductive Part where
  | v | i | pc | stack | sp | dt | st | fb | key | mem | fault | draws
  deriving DecidableEq, Repr

/-- Every piece of state but those listed is the same in both states; memory is compared byte by byte as it reads. -/
def SameBut (changed : List Part) (s t : State) : Prop :=
  (Part.v ∉ changed → ∀ j, t.getV j = s.getV j) ∧
  (Part.i ∉ changed → t.i = s.i) ∧
  (Part.pc ∉ changed → t.pc = s.pc) ∧
  (Part.stack ∉ changed → ∀ k, t.stackEntry k = s.stackEntry k) ∧
  (Part.sp ∉ changed → t.sp = s.sp) ∧
  (Part.dt ∉ changed → t.dt = s.dt) ∧
  (Part.st ∉ changed → t.st = s.st) ∧
  (Part.fb ∉ changed → ∀ p, t.pixel p = s.pixel p) ∧
  (Part.key ∉ changed → ∀ k, t.key.getLsbD k = s.key.getLsbD k) ∧
  (Part.mem ∉ changed → ∀ a, readByte t.mem a = readByte s.mem a) ∧
  (Part.fault ∉ changed → t.fault = s.fault) ∧
  (Part.draws ∉ changed → t.draws = s.draws)

/-! ### Faults -/

/-- The fault the one execute-time check of an instruction raises (R200 to R204, R207). -/
def executeFault (i : Instr) (s : State) : FaultStatus :=
  match i with
  | .ret => if s.sp.val = 0 then .stackUnderflow else .none
  | .call _ => if s.sp.val = 16 then .stackOverflow else .none
  | .draw _ _ n => if 1 ≤ n.toNat ∧ s.i.toNat + n.toNat - 1 > 0xFFF then .addressFault else .none
  | .ldB _ => if s.i.toNat + 2 > 0xFFF then .addressFault else .none
  | .storeRegs x | .loadRegs x => if s.i.toNat + x.val > 0xFFF then .addressFault else .none
  | .cls | .jp _ | .seImm _ _ | .sneImm _ _ | .seReg _ _ | .ldImm _ _ | .addImm _ _ | .ldReg _ _ => .none
  | .orReg _ _ | .andReg _ _ | .xorReg _ _ | .addReg _ _ | .subReg _ _ | .shr _ _ | .subnReg _ _ | .shl _ _ => .none
  | .sneReg _ _ | .ldI _ | .jpV0 _ | .rnd _ _ | .skp _ | .sknp _ | .ldVxDT _ | .ldVxK _ => .none
  | .ldDTVx _ | .ldSTVx _ | .addI _ | .ldF _ => .none

/-- The fault a step raises: the fetch's range check comes before the instruction's own (R207). -/
def stepFault (s : State) : FaultStatus :=
  if s.pc.toNat + 1 > 0xFFF then .addressFault
  else match decode (wordOfBytes (readByte s.mem s.pc.toNat) (readByte s.mem (s.pc.toNat + 1))) with
    | .ok i => executeFault i s
    | .error _ => .none

/-! ### Which registers an instruction writes and reads (R35) -/

/-- The access matrix's "written by" column for V[j], the flag writes to V[0xF] among it. -/
def writesReg (i : Instr) (j : RegIdx) : Bool :=
  match i with
  | .ldImm x _ | .addImm x _ | .ldReg x _ | .orReg x _ | .andReg x _ | .xorReg x _ | .rnd x _ => j == x
  | .ldVxDT x | .ldVxK x => j == x
  | .addReg x _ | .subReg x _ | .shr x _ | .subnReg x _ | .shl x _ => j == x || j == VF
  | .draw _ _ _ => j == VF
  | .loadRegs x => decide (j ≤ x)
  | .cls | .ret | .jp _ | .call _ | .seImm _ _ | .sneImm _ _ | .seReg _ _ | .sneReg _ _ | .ldI _ | .jpV0 _ => false
  | .skp _ | .sknp _ | .ldDTVx _ | .ldSTVx _ | .addI _ | .ldF _ | .ldB _ | .storeRegs _ => false

/-- The access matrix's "read by" column for V[j]. The shifts do not read V[Y]; DXYN reads no flag. -/
def readsReg (i : Instr) (j : RegIdx) : Bool :=
  match i with
  | .seImm x _ | .sneImm x _ | .addImm x _ | .shr x _ | .shl x _ => j == x
  | .skp x | .sknp x | .ldDTVx x | .ldSTVx x | .addI x | .ldF x | .ldB x => j == x
  | .seReg x y | .sneReg x y | .orReg x y | .andReg x y | .xorReg x y => j == x || j == y
  | .addReg x y | .subReg x y | .subnReg x y | .draw x y _ => j == x || j == y
  | .ldReg _ y => j == y
  | .jpV0 _ => j == 0
  | .storeRegs x => decide (j ≤ x)
  | .cls | .ret | .jp _ | .call _ | .ldImm _ _ | .ldI _ | .rnd _ _ | .ldVxDT _ | .ldVxK _ | .loadRegs _ => false

/-! ### Encodings -/

/-- Every word of the row with this mask and match decodes to the instruction its fields name (R84, R86). -/
def EncodedAs (mask matchWord : Word) (f : Word → Instr) : Prop :=
  ∀ w : Word, w &&& mask = matchWord → decode w = .ok (f w)

/-! ### Sprites (R160, R162) -/

/-- Sprite pixel of row `r` and column `j`: bit `7 - j` of the byte at I + r. -/
def spritePixel (s : State) (r j : Nat) : Bool := (readByte s.mem (s.i.toNat + r)).getLsbD (7 - j)

/-- The index of the display pixel under row `r`, column `j` of a sprite drawn at V[x], V[y]. -/
def targetPixel (s : State) (x y : RegIdx) (r j : Nat) : Nat :=
  (((s.getV y).toNat + r) % 32) * 64 + ((s.getV x).toNat + j) % 64

/-- Pixel `p` of the display lies under a 1 bit of the sprite of `n` rows drawn at V[x], V[y]. -/
def SpriteCovers (s : State) (x y : RegIdx) (n p : Nat) : Prop :=
  ∃ r j, r < n ∧ j < 8 ∧ targetPixel s x y r j = p ∧ spritePixel s r j = true

/-- Some 1 bit of the sprite lies over a pixel that is set (R163). -/
def SpriteCollides (s : State) (x y : RegIdx) (n : Nat) : Prop :=
  ∃ r j, r < n ∧ j < 8 ∧ s.pixel (targetPixel s x y r j) = true ∧ spritePixel s r j = true

end Sys2Proof.Machine
end

