-- ==== Sys2Proof/Certificates/Slice0/Obligations.lean ====
section
/-! DEFINITION. Sys2Proof/Certificates/Slice0/Obligations.lean: what is claimed of the model, rule by rule. A docstring names
the rule of spec/ a statement formalises, and says where a clause rests on a decision of the spec's own (92_eei_decisions.md)
or on a choice of the model (notes/assumptions). -/

open Sys2Proof Sys2Proof.Machine

/-! ### Encoding and decoding -/

/-- R81: the six fields of a word, as numbers, and the same fields in terms of the two fetched bytes. -/
def Obligations.WordFieldsAreTheirBits : Prop :=
  (∀ w : Word,
    (opClass w).toNat = w.toNat / 4096 ∧ (xField w).val = w.toNat / 256 % 16 ∧ (yField w).val = w.toNat / 16 % 16 ∧
    (nField w).toNat = w.toNat % 16 ∧ (nnField w).toNat = w.toNat % 256 ∧ (nnnField w).toNat = w.toNat % 4096) ∧
  (∀ hi lo : Byte,
    (opClass (wordOfBytes hi lo)).toNat = hi.toNat / 16 ∧ (xField (wordOfBytes hi lo)).val = hi.toNat % 16 ∧
    (yField (wordOfBytes hi lo)).val = lo.toNat / 16 ∧ (nField (wordOfBytes hi lo)).toNat = lo.toNat % 16 ∧
    nnField (wordOfBytes hi lo) = lo ∧ (nnnField (wordOfBytes hi lo)).toNat = hi.toNat % 16 * 256 + lo.toNat)

/-- Sample words written out from the table of R86 and the examples of R90, one or more for each family, and two alias
words that decision D6 makes unmapped. -/
def Obligations.SampleWordsDecode : Prop :=
  decode 0x00E0 = .ok .cls ∧ decode 0x220A = .ok (.call 0x20A) ∧ decode 0x5340 = .ok (.seReg 3 4) ∧
  decode 0x7310 = .ok (.addImm 3 0x10) ∧ decode 0x8126 = .ok (.shr 1 2) ∧ decode 0xA300 = .ok (.ldI 0x300) ∧
  decode 0xD015 = .ok (.draw 0 1 5) ∧ decode 0xE29E = .ok (.skp 2) ∧ decode 0xF20A = .ok (.ldVxK 2) ∧
  decode 0xF255 = .ok (.storeRegs 2) ∧ decode 0x5111 = .error .class5 ∧ decode 0x01E0 = .error .class0

/-- Decode and encode agree on every instruction, with every operand at every value its encoding admits (R82, R83). -/
def Obligations.EveryInstructionDecodesFromItsEncoding : Prop :=
  ∀ i : Instr, decode (encode i) = .ok i

/-- Each word has one meaning: a word that decodes is the encoding of what it decodes to. -/
def Obligations.EveryDecodedWordIsItsEncoding : Prop :=
  ∀ (w : Word) (i : Instr), decode w = .ok i → encode i = w

/-- The decode rule (R84), on the mask and match columns of R86: a word decodes to an instruction of the row it matches,
so no word matches two rows, and a word is rejected exactly when it matches none. That literal digits decide, not the
dispatch prose, is the spec's decision D6. -/
def Obligations.WordSelectsTheRowItMatches : Prop :=
  (∀ (w : Word) (i : Instr), w &&& i.mask = i.matchWord →
    ∃ i', decode w = .ok i' ∧ i'.mask = i.mask ∧ i'.matchWord = i.matchWord) ∧
  (∀ (w : Word) (i : Instr), decode w = .ok i → w &&& i.mask = i.matchWord) ∧
  (∀ w : Word, (∃ u, decode w = .error u) ↔ ∀ i : Instr, w &&& i.mask ≠ i.matchWord)

/-- The unmapped words are exactly those R87 lists, class by class (the counts in that rule are the spec's own
derivation and are not restated). -/
def Obligations.UnmappedWordsAreExactlyTheListed : Prop :=
  ∀ w : Word,
    (decode w = .error .class0 ↔ opClass w = 0x0 ∧ w ≠ 0x00E0 ∧ w ≠ 0x00EE) ∧
    (decode w = .error .class5 ↔ opClass w = 0x5 ∧ nField w ≠ 0x0) ∧
    (decode w = .error .class9 ↔ opClass w = 0x9 ∧ nField w ≠ 0x0) ∧
    (decode w = .error .class8 ↔ opClass w = 0x8 ∧ nField w ∈ [0x8, 0x9, 0xA, 0xB, 0xC, 0xD, 0xF]) ∧
    (decode w = .error .classE ↔ opClass w = 0xE ∧ nnField w ∉ [0x9E, 0xA1]) ∧
    (decode w = .error .classF ↔
      opClass w = 0xF ∧ nnField w ∉ [0x07, 0x0A, 0x15, 0x18, 0x1E, 0x29, 0x33, 0x55, 0x65])

/-! ### The step -/

/-- R80: the step fetches the big-endian word at PC and executes what it decodes to, and decoding depends on the word
alone; when PC + 1 is above 0xFFF the fetch raises AddressFault and the step does nothing else. -/
def Obligations.StepFetchesThenExecutes : Prop :=
  ∀ s : State, s.fault = .none →
    (s.pc.toNat + 1 ≤ 0xFFF →
      ∃ w : Word, w.toNat = (readByte s.mem s.pc.toNat).toNat * 256 + (readByte s.mem (s.pc.toNat + 1)).toNat ∧
        step s = match decode w with
          | .ok i => exec i s
          | .error _ => .next { s with pc := s.pc + 2 }) ∧
    (s.pc.toNat + 1 > 0xFFF → step s = .next { s with fault := .addressFault })

/-- A step runs the decoded instruction: what the word at PC decodes to is what the step executes, with nothing added
around it (each instruction moves PC itself, R24); an unmapped word only moves PC (R87). -/
def Obligations.StepRunsTheDecodedInstruction : Prop :=
  ∀ (s : State) (w : Word), s.fault = .none → fetchWord s = some w →
    (∀ i, decode w = .ok i → step s = exec i s) ∧
    (∀ u, decode w = .error u → step s = .next { s with pc := s.pc + 2 })

/-- R54: the byte at PC is the high one; opClass and X come from it and NN from the other. -/
def Obligations.FetchReadsTheHighByteFirst : Prop :=
  ∀ s : State, s.pc.toNat + 1 ≤ 0xFFF →
    ∃ w, fetchWord s = some w ∧
      w.toNat = (readByte s.mem s.pc.toNat).toNat * 256 + (readByte s.mem (s.pc.toNat + 1)).toNat ∧
      (opClass w).toNat = (readByte s.mem s.pc.toNat).toNat / 16 ∧
      (xField w).val = (readByte s.mem s.pc.toNat).toNat % 16 ∧
      nnField w = readByte s.mem (s.pc.toNat + 1)

/-- The host's placement of an instruction (log entry 3, a convention of the model): after it the very next step
executes that word, from a PC the fetch can use. -/
def Obligations.PlacedWordIsTheNextExecuted : Prop :=
  ∀ (s : State) (w : Nat), w < 65536 →
    step (s.withFetchWord 16 w) = runWord (BitVec.ofNat 16 w) (s.withFetchWord 16 w) ∧
    (s.pc.toNat + 1 ≤ 0xFFF → s.fault = .none → SameBut [.mem] s (s.withFetchWord 16 w) ∧
      ∀ a, a ≠ s.pc.toNat → a ≠ s.pc.toNat + 1 → readByte (s.withFetchWord 16 w).mem a = readByte s.mem a)

/-- Self-modifying code (R63): a word FX55 stores from V0 and V1 is what the very next fetch reads, where PC is the
address stored to. -/
def Obligations.StoredWordIsFetchedAtOnce : Prop :=
  ∀ (x : RegIdx) (s : State), 1 ≤ x.val → s.i.toNat + x.val ≤ 0xFFF →
    ∃ t, exec (.storeRegs x) s = .next t ∧
      fetchWord { t with pc := s.i } = some (wordOfBytes (s.getV 0) (s.getV 1))

/-- The resting state programs end in by convention (R240, whose definition of it is the spec's suggestion): a step in it
changes nothing, and a tick leaves it resting. -/
def Obligations.SelfJumpRests : Prop :=
  ∀ s : State, AtRest s → step s = .next s ∧ ∃ t, tick s = .next t ∧ AtRest t

/-- Two canonical memories that read the same are the same list (a convention of the model, log entry 5). -/
def Obligations.CanonicalMemoryIsDeterminedByItsBytes : Prop :=
  ∀ m m' : Memory, Memory.wf m = true → Memory.wf m' = true → (∀ a, readByte m a = readByte m' a) → m = m'

/-! ### Faults -/

/-- Fault entry (R203; precision and codes are the spec's decision D4): an instruction or a step that changes FAULT changes
nothing else. -/
def Obligations.FaultEntryIsPrecise : Prop :=
  (∀ (i : Instr) (s t : State), exec i s = .next t → t.fault ≠ s.fault → t = { s with fault := t.fault }) ∧
  (∀ s t : State, step s = .next t → t.fault ≠ s.fault → t = { s with fault := t.fault })

/-- The fault table (R200 to R204, R207; decisions D1, D3 and D4 of the spec): a step raises exactly the fault the table
gives, the fetch's check before the instruction's own, and then nothing but FAULT changes. -/
def Obligations.StepRaisesTheFaultOfTheTable : Prop :=
  ∀ s : State, s.fault = .none →
    ∃ t, step s = .next t ∧ t.fault = stepFault s ∧
      (stepFault s ≠ .none → t = { s with fault := stepFault s })

/-- After a fault (R208; decision D4 of the spec): no step and no tick and no tone; no event but `reset` clears FAULT. -/
def Obligations.OnlyResetLeavesAFault : Prop :=
  ∀ p : Session, p.machine.fault ≠ .none →
    step p.machine = .fault (.stopped p.machine.fault) ∧
    p.issue .step = .fault (.stopped p.machine.fault) ∧ p.issue .tick = .fault (.stopped p.machine.fault) ∧
    p.after .step = p ∧ p.after .tick = p ∧
    (∀ e : Event, (∀ font, e ≠ .reset font) →
      (p.after e).machine.fault = p.machine.fault ∧ p.toneOf e = false) ∧
    (∀ font : List Byte, font.length = 80 → (p.after (.reset font)).machine.fault = .none)

/-! ### Reset and the host's events -/

/-- The `reset` event (R34, R230; PC is the spec's decision D5, FAULT D4, the erased program and keys D17): from any
state, faulted or not, every piece of state takes the value of the table, for every value of the parameter FONT. The
random source is no state of the block and goes on (log entry 1). -/
def Obligations.ResetLeavesTheTable : Prop :=
  ∀ (p : Session) (font : List Byte), font.length = 80 →
    ∃ t : State, p.issue (.reset font) = .next ⟨⟨t, true⟩, false⟩ ∧
      (∀ j, t.getV j = 0x00) ∧ t.i = 0x0000 ∧ t.pc = 0x0200 ∧ t.sp.val = 0 ∧ (∀ k, t.stackEntry k = 0x0000) ∧
      t.dt = 0x00 ∧ t.st = 0x00 ∧ (∀ q, t.pixel q = false) ∧ (∀ k, t.key.getLsbD k = false) ∧
      (∀ a, a < 80 → readByte t.mem a = font.getD a 0) ∧ (∀ a, 80 ≤ a → readByte t.mem a = 0x00) ∧
      t.fault = .none ∧ t.draws = p.machine.draws

/-- The state after reset under the default FONT (log entry 2) is `State.reset`. -/
def Obligations.ResetStateIsTheDefaultReset : Prop :=
  resetWith defaultFont 0 = State.reset ∧ defaultFont.length = 80 ∧ step State.reset = .next { State.reset with pc := 0x202 }

/-- `load_program` (R205, R236; the bound and the boot-state rule are the spec's decision D15): an image of at most 3583
bytes is copied to 0x200 and nothing else changes; a longer one is refused and writes nothing; outside the boot state
there is no load. -/
def Obligations.LoadProgramCopiesTheImage : Prop :=
  ∀ (p : Session) (bytes : List Byte),
    (p.booting = true → bytes.length ≤ 3583 →
      ∃ t : State, p.issue (.loadProgram bytes) = .next ⟨⟨t, true⟩, false⟩ ∧ SameBut [.mem] p.machine t ∧
        (∀ k, k < bytes.length → readByte t.mem (0x200 + k) = bytes.getD k 0) ∧
        (∀ a, (a < 0x200 ∨ 0x200 + bytes.length ≤ a) → readByte t.mem a = readByte p.machine.mem a)) ∧
    (p.booting = true → bytes.length > 3583 →
      p.issue (.loadProgram bytes) = .refused .loadError ∧ p.after (.loadProgram bytes) = p) ∧
    (p.booting = false → p.issue (.loadProgram bytes) = .refused .loadOutsideBoot)

/-- `key_set(k, pressed)`, k in 0..15, writes one key flag and nothing else (R237). Two clauses are choices: that the event is
accepted in any state, faulted or not, is the spec's own choice in R237 and the model's deduction of log entry 22, and
that it leaves the boot-state flag as it was rests on log entries 4 and 22. -/
def Obligations.KeySetWritesOneFlag : Prop :=
  ∀ (p : Session) (k : Nat) (pressed : Bool), k < 16 →
    ∃ t : State, p.issue (.keySet k pressed) = .next ⟨⟨t, p.booting⟩, false⟩ ∧ SameBut [.key] p.machine t ∧
      ∀ j, t.key.getLsbD j = if j = k then pressed else p.machine.key.getLsbD j

/-- R30: no instruction writes a key flag, and of the events only `key_set` does, besides `reset`, which clears all. -/
def Obligations.OnlyKeySetAndResetWriteKeyFlags : Prop :=
  (∀ (i : Instr) (s t : State), exec i s = .next t → t.key = s.key) ∧
  (∀ (e : Event) (p : Session), (∀ k b, e ≠ .keySet k b) → (∀ font, e ≠ .reset font) →
    (p.after e).machine.key = p.machine.key) ∧
  (∀ (font : List Byte) (p : Session), font.length = 80 → (p.after (.reset font)).machine.key = 0)

/-- A tick takes one off each timer that is above 0, each on its own, and changes nothing else; the tone output is 1 exactly
when it finds ST at 1; it is enabled only while FAULT is `none` (R211; that a fault stops it is the spec's decision D4).
That a tick in the boot state is accepted too and leaves the boot-state flag as it was is the model's deduction, log
entry 22, about the flag of log entry 4. -/
def Obligations.TickCountsBothTimersDown : Prop :=
  ∀ p : Session,
    (p.machine.fault = .none →
      ∃ t : State, p.issue .tick = .next ⟨⟨t, p.booting⟩, decide (p.machine.st.toNat = 1)⟩ ∧
        tick p.machine = .next t ∧ SameBut [.dt, .st] p.machine t ∧
        t.dt.toNat = (if p.machine.dt.toNat > 0 then p.machine.dt.toNat - 1 else p.machine.dt.toNat) ∧
        t.st.toNat = (if p.machine.st.toNat > 0 then p.machine.st.toNat - 1 else p.machine.st.toNat)) ∧
    (p.machine.fault ≠ .none → p.issue .tick = .fault (.stopped p.machine.fault))

/-- The timer cadence property (S8, R28): after n ticks each timer has lost n, and not gone below 0. -/
def Obligations.TimersReachZeroAndStay : Prop :=
  ∀ (n : Nat) (p : Session), p.machine.fault = .none →
    (Session.run (List.replicate n .tick) p).machine.dt.toNat = p.machine.dt.toNat - n ∧
    (Session.run (List.replicate n .tick) p).machine.st.toNat = p.machine.st.toNat - n ∧
    SameBut [.dt, .st] p.machine (Session.run (List.replicate n .tick) p).machine

/-- R217: the tone is pulsed in the tick that takes ST from 1 to 0 and at no other time. -/
def Obligations.ToneOnlyInTheExpiringTick : Prop :=
  ∀ (e : Event) (p : Session), p.toneOf e = true ↔
    e = .tick ∧ p.machine.st.toNat = 1 ∧ (p.after e).machine.st.toNat = 0

/-- One pulse per expiry (R211, R217): in n ticks from ST = v there is one pulse when 1 ≤ v ≤ n and none otherwise. -/
def Obligations.ToneOncePerExpiry : Prop :=
  ∀ (n : Nat) (p : Session), p.machine.fault = .none →
    Session.pulses (List.replicate n .tick) p =
      if 1 ≤ p.machine.st.toNat ∧ p.machine.st.toNat ≤ n then 1 else 0

/-! ### Invariants -/

/-- The invariant holds at `State.reset`, and after a `reset` event under any FONT. Its clause on memory is the canonical
form, the model's own choice (log entry 5, DESIGN CHOICE). -/
def Obligations.InvariantHoldsAtReset : Prop :=
  Inv State.reset ∧ ∀ (font : List Byte) (draws : Nat), font.length = 80 → Inv (resetWith font draws)

/-- Every step keeps the invariant: PC stays at most 0x10FE (R25) and every stacked return address at most 0x1000 (R27,
R103). Its clause on memory, that the list stays canonical, with every address inside the 4096 bytes of R52, is the
model's own form (log entry 5, DESIGN CHOICE) and no rule of the spec. -/
def Obligations.EveryStepKeepsTheInvariant : Prop :=
  ∀ s t : State, Inv s → step s = .next t → Inv t

/-- Every run of events keeps the invariant, whichever way the events interleave, the driver's schedules among them. That
every interleaving is admitted is the spec's decision D13 (log entry 18), and the invariant's clause on memory is the
model's own canonical form (log entry 5, DESIGN CHOICE). -/
def Obligations.EveryRunKeepsTheInvariant : Prop :=
  ∀ (es : List Event) (p : Session), Inv p.machine → Inv (Session.run es p).machine

/-! ### Rules about all instructions -/

/-- Every instruction answers a next state: its own effect, or the fault entry of R203; none is refused. -/
def Obligations.EveryInstructionAnswersANextState : Prop :=
  ∀ (i : Instr) (s : State), ∃ t, exec i s = .next t

/-- The "written by" column of the access matrix (R35, which the spec derives): what changes, and by which instruction. -/
def Obligations.AccessMatrixOfWrites : Prop :=
  ∀ (i : Instr) (s t : State), exec i s = .next t →
    (∀ j, t.getV j ≠ s.getV j → writesReg i j = true) ∧
    (t.i ≠ s.i → (∃ a, i = .ldI a) ∨ ∃ x, i = .addI x ∨ i = .ldF x ∨ i = .storeRegs x ∨ i = .loadRegs x) ∧
    ((∃ k, t.stackEntry k ≠ s.stackEntry k) → ∃ a, i = .call a) ∧
    (t.sp ≠ s.sp → i = .ret ∨ ∃ a, i = .call a) ∧
    (t.dt ≠ s.dt → ∃ x, i = .ldDTVx x) ∧ (t.st ≠ s.st → ∃ x, i = .ldSTVx x) ∧
    ((∃ q, t.pixel q ≠ s.pixel q) → i = .cls ∨ ∃ x y n, i = .draw x y n) ∧
    ((∃ a, readByte t.mem a ≠ readByte s.mem a) → ∃ x, i = .ldB x ∨ i = .storeRegs x) ∧
    t.key = s.key ∧ (t.draws ≠ s.draws → ∃ x nn, i = .rnd x nn)

/-- The "read by" column of the access matrix for the general registers (R35, R22): an instruction that does not read a
register behaves the same whatever that register holds; in particular no instruction reads VF implicitly. The register
itself is in both runs what the instruction writes to it, where it writes it and completes (every writer of a register
that completes moves PC; one that faults, and FX0A with every key up, does not), and else keeps what it held. The two
executions of CXNN are compared at the same draw (log entry 1, DESIGN CHOICE: equal counters draw equal bytes). -/
def Obligations.UnreadRegistersDoNotMatter : Prop :=
  ∀ (i : Instr) (j : RegIdx) (b : Byte) (s t : State), readsReg i j = false → exec i s = .next t →
    ∃ u, exec i (s.setV j b) = .next u ∧ SameBut [.v] t u ∧
      (∀ k, k ≠ j → u.getV k = t.getV k) ∧
      (writesReg i j = true → t.pc ≠ s.pc → u.getV j = t.getV j) ∧
      (writesReg i j = false ∨ t.pc = s.pc → t.getV j = s.getV j ∧ u.getV j = b)

/-- No instruction reads ST (R28, R243): the sound timer's value changes nothing but itself, and FX18 leaves in ST the same
byte whatever it held; every other instruction leaves it alone. The two executions of CXNN are compared at the same draw
(log entry 1, DESIGN CHOICE: equal counters draw equal bytes). -/
def Obligations.NoInstructionReadsTheSoundTimer : Prop :=
  ∀ (i : Instr) (b : Byte) (s t : State), exec i s = .next t →
    ∃ u, exec i (s.setST b) = .next u ∧ SameBut [.st] t u ∧
      (∀ x, i = .ldSTVx x → u.st = t.st) ∧
      ((∀ x, i ≠ .ldSTVx x) → t.st = s.st ∧ u.st = b)

/-- The flag rule (R22): the six flag writers leave 0x00 or 0x01 in VF (DXYN where its range check passes), and an instruction that
is not one of them changes VF only if its X field is 0xF. -/
def Obligations.FlagIsZeroOrOne : Prop :=
  ∀ (i : Instr) (s t : State), exec i s = .next t →
    ((∃ x y, i = .addReg x y ∨ i = .subReg x y ∨ i = .shr x y ∨ i = .subnReg x y ∨ i = .shl x y) →
      t.getV VF = 0x00 ∨ t.getV VF = 0x01) ∧
    (∀ x y n, i = .draw x y n → (n.toNat = 0 ∨ s.i.toNat + n.toNat - 1 ≤ 0xFFF) →
      t.getV VF = 0x00 ∨ t.getV VF = 0x01) ∧
    (t.getV VF ≠ s.getV VF →
      (∃ x y, i = .addReg x y ∨ i = .subReg x y ∨ i = .shr x y ∨ i = .subnReg x y ∨ i = .shl x y) ∨
      (∃ x y n, i = .draw x y n) ∨
      (∃ nn, i = .ldImm VF nn ∨ i = .addImm VF nn ∨ i = .rnd VF nn) ∨
      (∃ y, i = .ldReg VF y ∨ i = .orReg VF y ∨ i = .andReg VF y ∨ i = .xorReg VF y) ∨
      i = .ldVxDT VF ∨ i = .ldVxK VF ∨ i = .loadRegs VF)

/-! ### Control transfer -/

/-- R101 RET, and StackUnderflow when no entry is in use: the fault leaves everything else as it was. That it fails there is
the spec's decision D3, and how the pointer counts is its decision D16. -/
def Obligations.ReturnPopsTheStack : Prop :=
  EncodedAs 0xFFFF 0x00EE (fun _ => .ret) ∧
  ∀ s : State,
    (s.sp.val ≠ 0 →
      ∃ t, exec .ret s = .next t ∧ t.sp.val = s.sp.val - 1 ∧
        (∀ k : Fin 16, k.val = s.sp.val - 1 → t.pc = s.stackEntry k) ∧ SameBut [.sp, .pc] s t) ∧
    (s.sp.val = 0 → exec .ret s = .next { s with fault := .stackUnderflow })

/-- R102 JP NNN and R104 JP V0, NNN: the target is used as it is, odd or out of range alike. -/
def Obligations.JumpsSetThePc : Prop :=
  EncodedAs 0xF000 0x1000 (fun w => .jp (nnnField w)) ∧ EncodedAs 0xF000 0xB000 (fun w => .jpV0 (nnnField w)) ∧
  ∀ (nnn : BitVec 12) (s : State),
    (∃ t, exec (.jp nnn) s = .next t ∧ t.pc.toNat = nnn.toNat ∧ SameBut [.pc] s t) ∧
    (∃ t, exec (.jpV0 nnn) s = .next t ∧ t.pc.toNat = nnn.toNat + (s.getV 0).toNat ∧ SameBut [.pc] s t)

/-- R103 CALL NNN: pushes the address of the next instruction; StackOverflow at capacity leaves everything else as it was.
That it fails there is the spec's decision D3, and which entry the push writes is its decision D16. -/
def Obligations.CallPushesTheReturnAddress : Prop :=
  EncodedAs 0xF000 0x2000 (fun w => .call (nnnField w)) ∧
  ∀ (nnn : BitVec 12) (s : State),
    (s.sp.val < 16 →
      ∃ t, exec (.call nnn) s = .next t ∧ t.sp.val = s.sp.val + 1 ∧ t.pc.toNat = nnn.toNat ∧
        (∀ k : Fin 16, t.stackEntry k = if k.val = s.sp.val then s.pc + 2 else s.stackEntry k) ∧
        SameBut [.sp, .pc, .stack] s t) ∧
    (s.sp.val = 16 → exec (.call nnn) s = .next { s with fault := .stackOverflow })

/-- The CALL and RET round trip (S5): a CALL and then a RET, whatever ran of the callee left the stack as the CALL did,
come back to the address after the CALL with the stack pointer as before. -/
def Obligations.CallThenReturnComesBack : Prop :=
  ∀ (nnn : BitVec 12) (s : State), s.sp.val < 16 →
    ∃ t, exec (.call nnn) s = .next t ∧
      ∀ t' : State, t'.sp = t.sp → (∀ k, t'.stackEntry k = t.stackEntry k) →
        ∃ u, exec .ret t' = .next u ∧ u.pc = s.pc + 2 ∧ u.sp = s.sp ∧ SameBut [.pc, .sp] t' u

/-- R105 SE Vx, NN and R106 SNE Vx, NN: a skip is PC + 4, no skip PC + 2, both modulo 2^16. -/
def Obligations.SkipsOnImmediate : Prop :=
  EncodedAs 0xF000 0x3000 (fun w => .seImm (xField w) (nnField w)) ∧
  EncodedAs 0xF000 0x4000 (fun w => .sneImm (xField w) (nnField w)) ∧
  ∀ (x : RegIdx) (nn : Byte) (s : State),
    (∃ t, exec (.seImm x nn) s = .next t ∧
      t.pc.toNat = (if (s.getV x).toNat = nn.toNat then s.pc.toNat + 4 else s.pc.toNat + 2) % 65536 ∧ SameBut [.pc] s t) ∧
    (∃ t, exec (.sneImm x nn) s = .next t ∧
      t.pc.toNat = (if (s.getV x).toNat ≠ nn.toNat then s.pc.toNat + 4 else s.pc.toNat + 2) % 65536 ∧ SameBut [.pc] s t)

/-- R107 SE Vx, Vy and R108 SNE Vx, Vy. -/
def Obligations.SkipsOnRegisters : Prop :=
  EncodedAs 0xF00F 0x5000 (fun w => .seReg (xField w) (yField w)) ∧
  EncodedAs 0xF00F 0x9000 (fun w => .sneReg (xField w) (yField w)) ∧
  (∀ w : Word, (opClass w = 0x5 ∨ opClass w = 0x9) → nField w ≠ 0 → ∃ u, decode w = .error u) ∧
  ∀ (x y : RegIdx) (s : State),
    (∃ t, exec (.seReg x y) s = .next t ∧
      t.pc.toNat = (if (s.getV x).toNat = (s.getV y).toNat then s.pc.toNat + 4 else s.pc.toNat + 2) % 65536 ∧
      SameBut [.pc] s t) ∧
    (∃ t, exec (.sneReg x y) s = .next t ∧
      t.pc.toNat = (if (s.getV x).toNat ≠ (s.getV y).toNat then s.pc.toNat + 4 else s.pc.toNat + 2) % 65536 ∧
      SameBut [.pc] s t)

/-! ### Register load, arithmetic and logic -/

/-- R121 LD Vx, NN, R122 ADD Vx, NN (no carry flag) and R123 LD Vx, Vy: VF changes only where X names it. -/
def Obligations.LoadsAndAddImmediate : Prop :=
  EncodedAs 0xF000 0x6000 (fun w => .ldImm (xField w) (nnField w)) ∧
  EncodedAs 0xF000 0x7000 (fun w => .addImm (xField w) (nnField w)) ∧
  EncodedAs 0xF00F 0x8000 (fun w => .ldReg (xField w) (yField w)) ∧
  ∀ (x y : RegIdx) (nn : Byte) (s : State),
    (∃ t, exec (.ldImm x nn) s = .next t ∧ (∀ j, t.getV j = if j = x then nn else s.getV j) ∧
      t.pc = s.pc + 2 ∧ SameBut [.v, .pc] s t) ∧
    (∃ t, exec (.addImm x nn) s = .next t ∧ (t.getV x).toNat = ((s.getV x).toNat + nn.toNat) % 256 ∧
      (∀ j, j ≠ x → t.getV j = s.getV j) ∧ t.pc = s.pc + 2 ∧ SameBut [.v, .pc] s t) ∧
    (∃ t, exec (.ldReg x y) s = .next t ∧ (∀ j, t.getV j = if j = x then s.getV y else s.getV j) ∧
      t.pc = s.pc + 2 ∧ SameBut [.v, .pc] s t)

/-- R124 OR, R125 AND and R126 XOR, bit by bit: VF changes only where X names it. -/
def Obligations.LogicIsBitwise : Prop :=
  EncodedAs 0xF00F 0x8001 (fun w => .orReg (xField w) (yField w)) ∧
  EncodedAs 0xF00F 0x8002 (fun w => .andReg (xField w) (yField w)) ∧
  EncodedAs 0xF00F 0x8003 (fun w => .xorReg (xField w) (yField w)) ∧
  ∀ (x y : RegIdx) (s : State),
    (∃ t, exec (.orReg x y) s = .next t ∧
      (∀ b, (t.getV x).getLsbD b = ((s.getV x).getLsbD b || (s.getV y).getLsbD b)) ∧
      (∀ j, j ≠ x → t.getV j = s.getV j) ∧ t.pc = s.pc + 2 ∧ SameBut [.v, .pc] s t) ∧
    (∃ t, exec (.andReg x y) s = .next t ∧
      (∀ b, (t.getV x).getLsbD b = ((s.getV x).getLsbD b && (s.getV y).getLsbD b)) ∧
      (∀ j, j ≠ x → t.getV j = s.getV j) ∧ t.pc = s.pc + 2 ∧ SameBut [.v, .pc] s t) ∧
    (∃ t, exec (.xorReg x y) s = .next t ∧
      (∀ b, (t.getV x).getLsbD b = ((s.getV x).getLsbD b != (s.getV y).getLsbD b)) ∧
      (∀ j, j ≠ x → t.getV j = s.getV j) ∧ t.pc = s.pc + 2 ∧ SameBut [.v, .pc] s t)

/-- R127 ADD Vx, Vy: the sum modulo 256, then the carry in VF, which stands when X is 0xF. -/
def Obligations.AddSetsTheCarry : Prop :=
  EncodedAs 0xF00F 0x8004 (fun w => .addReg (xField w) (yField w)) ∧
  ∀ (x y : RegIdx) (s : State),
    ∃ t, exec (.addReg x y) s = .next t ∧
      (t.getV VF).toNat = (if (s.getV x).toNat + (s.getV y).toNat > 255 then 1 else 0) ∧
      (x ≠ VF → (t.getV x).toNat = ((s.getV x).toNat + (s.getV y).toNat) % 256) ∧
      (∀ j, j ≠ x → j ≠ VF → t.getV j = s.getV j) ∧ t.pc = s.pc + 2 ∧ SameBut [.v, .pc] s t

/-- R128 SUB Vx, Vy and R130 SUBN Vx, Vy: the difference modulo 256, then the strict comparison in VF, which stands when X
is 0xF. -/
def Obligations.SubtractSetsTheStrictComparison : Prop :=
  EncodedAs 0xF00F 0x8005 (fun w => .subReg (xField w) (yField w)) ∧
  EncodedAs 0xF00F 0x8007 (fun w => .subnReg (xField w) (yField w)) ∧
  ∀ (x y : RegIdx) (s : State),
    (∃ t, exec (.subReg x y) s = .next t ∧
      (t.getV VF).toNat = (if (s.getV x).toNat > (s.getV y).toNat then 1 else 0) ∧
      (x ≠ VF → ((t.getV x).toNat : Int) = ((s.getV x).toNat - (s.getV y).toNat) % 256) ∧
      (∀ j, j ≠ x → j ≠ VF → t.getV j = s.getV j) ∧ t.pc = s.pc + 2 ∧ SameBut [.v, .pc] s t) ∧
    (∃ t, exec (.subnReg x y) s = .next t ∧
      (t.getV VF).toNat = (if (s.getV y).toNat > (s.getV x).toNat then 1 else 0) ∧
      (x ≠ VF → ((t.getV x).toNat : Int) = ((s.getV y).toNat - (s.getV x).toNat) % 256) ∧
      (∀ j, j ≠ x → j ≠ VF → t.getV j = s.getV j) ∧ t.pc = s.pc + 2 ∧ SameBut [.v, .pc] s t)

/-- R129 SHR Vx and R131 SHL Vx: one place, the bit shifted out in VF, which stands when X is 0xF; the Y digit selects
nothing, so V[Y] is neither read nor written. -/
def Obligations.ShiftsKeepTheBitShiftedOut : Prop :=
  EncodedAs 0xF00F 0x8006 (fun w => .shr (xField w) (yField w)) ∧
  EncodedAs 0xF00F 0x800E (fun w => .shl (xField w) (yField w)) ∧
  ∀ (x y : RegIdx) (s : State),
    (∃ t, (∀ y' : RegIdx, exec (.shr x y') s = .next t) ∧ exec (.shr x y) s = .next t ∧
      (t.getV VF).toNat = (s.getV x).toNat % 2 ∧
      (x ≠ VF → (t.getV x).toNat = (s.getV x).toNat / 2) ∧
      (∀ j, j ≠ x → j ≠ VF → t.getV j = s.getV j) ∧ t.pc = s.pc + 2 ∧ SameBut [.v, .pc] s t) ∧
    (∃ t, (∀ y' : RegIdx, exec (.shl x y') s = .next t) ∧ exec (.shl x y) s = .next t ∧
      (t.getV VF).toNat = (s.getV x).toNat / 128 ∧
      (x ≠ VF → (t.getV x).toNat = (s.getV x).toNat * 2 % 256) ∧
      (∀ j, j ≠ x → j ≠ VF → t.getV j = s.getV j) ∧ t.pc = s.pc + 2 ∧ SameBut [.v, .pc] s t)

/-- R132 RND Vx, NN (the draw is free by decision D12; log entry 1): the result is the source's next byte under the mask,
so at most NN and without a bit outside it; every one of the 256 bytes is a draw the meaning takes. -/
def Obligations.RandomByteIsMasked : Prop :=
  EncodedAs 0xF000 0xC000 (fun w => .rnd (xField w) (nnField w)) ∧
  ∀ (x : RegIdx) (nn : Byte) (s : State),
    (∃ t, exec (.rnd x nn) s = .next t ∧ exec (.rnd x nn) s = execRndWith (Config.rand8 s.draws) x nn s ∧
      (t.getV x).toNat ≤ nn.toNat ∧ (t.getV x) &&& ~~~nn = 0x00 ∧
      (∀ j, j ≠ x → t.getV j = s.getV j) ∧ t.pc = s.pc + 2 ∧ t.draws = s.draws + 1 ∧ SameBut [.v, .pc, .draws] s t) ∧
    (∀ r : Byte, ∃ t, execRndWith r x nn s = .next t ∧
      (∀ b, (t.getV x).getLsbD b = (r.getLsbD b && nn.getLsbD b)) ∧
      (∀ j, j ≠ x → t.getV j = s.getV j) ∧ t.pc = s.pc + 2 ∧ SameBut [.v, .pc, .draws] s t)

/-! ### Index register and memory -/

/-- R141 LD I, NNN and R143 LD F, Vx: the whole 8-bit value of V[X] is multiplied by 5. -/
def Obligations.IndexLoads : Prop :=
  EncodedAs 0xF000 0xA000 (fun w => .ldI (nnnField w)) ∧ EncodedAs 0xF0FF 0xF029 (fun w => .ldF (xField w)) ∧
  ∀ (nnn : BitVec 12) (x : RegIdx) (s : State),
    (∃ t, exec (.ldI nnn) s = .next t ∧ t.i.toNat = nnn.toNat ∧ t.pc = s.pc + 2 ∧ SameBut [.i, .pc] s t) ∧
    (∃ t, exec (.ldF x) s = .next t ∧ t.i.toNat = (s.getV x).toNat * 5 ∧ t.pc = s.pc + 2 ∧ SameBut [.i, .pc] s t)

/-- R142 ADD I, Vx: modulo 2^16 (the spec's decision D8), never masked to 12 bits, no flag written. -/
def Obligations.AddToIndexWrapsAtSixteenBits : Prop :=
  EncodedAs 0xF0FF 0xF01E (fun w => .addI (xField w)) ∧
  ∀ (x : RegIdx) (s : State),
    ∃ t, exec (.addI x) s = .next t ∧ t.i.toNat = (s.i.toNat + (s.getV x).toNat) % 65536 ∧
      t.pc = s.pc + 2 ∧ SameBut [.i, .pc] s t

/-- R144 LD B, Vx: hundreds, tens and ones at I, I + 1 and I + 2, I unmoved, no other byte changed, wherever I points;
AddressFault when I + 2 is above 0xFFF, with nothing written (R144 states it; that the machine fails and does not mask
addresses is the spec's decision D1, and that no address is protected its decision D2). -/
def Obligations.DecimalDigitsAreStored : Prop :=
  EncodedAs 0xF0FF 0xF033 (fun w => .ldB (xField w)) ∧
  ∀ (x : RegIdx) (s : State),
    (s.i.toNat + 2 ≤ 0xFFF →
      ∃ t, exec (.ldB x) s = .next t ∧
        (readByte t.mem s.i.toNat).toNat = (s.getV x).toNat / 100 ∧
        (readByte t.mem (s.i.toNat + 1)).toNat = (s.getV x).toNat / 10 % 10 ∧
        (readByte t.mem (s.i.toNat + 2)).toNat = (s.getV x).toNat % 10 ∧
        (∀ a, (a < s.i.toNat ∨ s.i.toNat + 3 ≤ a) → readByte t.mem a = readByte s.mem a) ∧
        t.pc = s.pc + 2 ∧ SameBut [.mem, .pc] s t) ∧
    (s.i.toNat + 2 > 0xFFF → exec (.ldB x) s = .next { s with fault := .addressFault })

/-- R145 LD [I], Vx: V0 to VX at I to I + X, V0 lowest, then I moves past the block; AddressFault when I + X is above
0xFFF, with no byte written and I unchanged (R145 states it; decision D1 of the spec is the policy behind it). -/
def Obligations.RegistersAreStored : Prop :=
  EncodedAs 0xF0FF 0xF055 (fun w => .storeRegs (xField w)) ∧
  ∀ (x : RegIdx) (s : State),
    (s.i.toNat + x.val ≤ 0xFFF →
      ∃ t, exec (.storeRegs x) s = .next t ∧
        (∀ k : RegIdx, k ≤ x → readByte t.mem (s.i.toNat + k.val) = s.getV k) ∧
        (∀ a, (a < s.i.toNat ∨ s.i.toNat + x.val + 1 ≤ a) → readByte t.mem a = readByte s.mem a) ∧
        t.i.toNat = (s.i.toNat + x.val + 1) % 65536 ∧ t.pc = s.pc + 2 ∧ SameBut [.mem, .i, .pc] s t) ∧
    (s.i.toNat + x.val > 0xFFF → exec (.storeRegs x) s = .next { s with fault := .addressFault })

/-- R146 LD Vx, [I]: MEM[I] to MEM[I + X] into V0 to VX, the registers above untouched, then I moves past the block;
AddressFault when I + X is above 0xFFF, with no register written and I unchanged (R146 states it; decision D1 of the spec
is the policy behind it). -/
def Obligations.RegistersAreLoaded : Prop :=
  EncodedAs 0xF0FF 0xF065 (fun w => .loadRegs (xField w)) ∧
  ∀ (x : RegIdx) (s : State),
    (s.i.toNat + x.val ≤ 0xFFF →
      ∃ t, exec (.loadRegs x) s = .next t ∧
        (∀ k : RegIdx, t.getV k = if k ≤ x then readByte s.mem (s.i.toNat + k.val) else s.getV k) ∧
        t.i.toNat = (s.i.toNat + x.val + 1) % 65536 ∧ t.pc = s.pc + 2 ∧ SameBut [.v, .i, .pc] s t) ∧
    (s.i.toNat + x.val > 0xFFF → exec (.loadRegs x) s = .next { s with fault := .addressFault })

/-! ### Display -/

/-- R161 CLS: every pixel 0, nothing else, VF included. -/
def Obligations.ClearScreen : Prop :=
  EncodedAs 0xFFFF 0x00E0 (fun _ => .cls) ∧
  ∀ s : State, ∃ t, exec .cls s = .next t ∧ (∀ p, p < 2048 → t.pixel p = false) ∧ t.pc = s.pc + 2 ∧
    SameBut [.fb, .pc] s t

/-- R162 DRAW Vx, Vy, N (which fields feed the draw, and N = 0, are the spec's decision D10): a pixel is turned over
exactly when it lies under a 1 bit of the sprite, wrapped in both directions; only FB, VF and PC change; AddressFault when
N ≥ 1 and I + N - 1 is above 0xFFF, with FB and VF unchanged (decision D1). -/
def Obligations.DrawXorsTheSprite : Prop :=
  EncodedAs 0xF000 0xD000 (fun w => .draw (xField w) (yField w) (nField w)) ∧
  ∀ (x y : RegIdx) (n : BitVec 4) (s : State),
    ((n.toNat = 0 ∨ s.i.toNat + n.toNat - 1 ≤ 0xFFF) →
      ∃ t, exec (.draw x y n) s = .next t ∧
        (∀ p, p < 2048 → (t.pixel p = true ↔ ¬(s.pixel p = true ↔ SpriteCovers s x y n.toNat p))) ∧
        (∀ j, j ≠ VF → t.getV j = s.getV j) ∧ t.pc = s.pc + 2 ∧ SameBut [.fb, .v, .pc] s t) ∧
    (¬(n.toNat = 0 ∨ s.i.toNat + n.toNat - 1 ≤ 0xFFF) →
      exec (.draw x y n) s = .next { s with fault := .addressFault })

/-- The collision detector (R163): VF is 1 exactly when some 1 bit of the sprite lies over a pixel that was set before this
draw, else 0. That V[X], V[Y] and N feed the draw, and that N = 0 writes VF = 0, are the spec's decision D10 (log
entry 15), and the range check's policy is its decision D1 (log entry 7). -/
def Obligations.CollisionIsOldPixelUnderASpriteBit : Prop :=
  ∀ (x y : RegIdx) (n : BitVec 4) (s : State), (n.toNat = 0 ∨ s.i.toNat + n.toNat - 1 ≤ 0xFFF) →
    ∃ t, exec (.draw x y n) s = .next t ∧
      (SpriteCollides s x y n.toNat → t.getV VF = 0x01) ∧ (¬SpriteCollides s x y n.toNat → t.getV VF = 0x00)

/-- R164, double XOR (in the terms the spec derives): two executions of one DXYN with neither X nor Y equal to 0xF leave FB
as it was; the second reports a collision exactly when the first set a pixel, and a sprite with a 1 bit collides at least
once. That V[X], V[Y] and N feed the draw, and what N = 0 does, are the spec's decision D10 (log entry 15). -/
def Obligations.DrawingTwiceRestoresTheDisplay : Prop :=
  ∀ (x y : RegIdx) (n : BitVec 4) (s : State), x ≠ VF → y ≠ VF → (n.toNat = 0 ∨ s.i.toNat + n.toNat - 1 ≤ 0xFFF) →
    ∃ t u, exec (.draw x y n) s = .next t ∧ exec (.draw x y n) t = .next u ∧
      (∀ p, p < 2048 → u.pixel p = s.pixel p) ∧
      (u.getV VF = 0x01 ↔ ∃ r j, r < n.toNat ∧ j < 8 ∧ spritePixel s r j = true ∧ s.pixel (targetPixel s x y r j) = false) ∧
      ((∃ r j, r < n.toNat ∧ j < 8 ∧ spritePixel s r j = true) → t.getV VF = 0x01 ∨ u.getV VF = 0x01)

/-! ### Timers and keys -/

/-- R181 LD Vx, DT, R182 LD DT, Vx and R183 LD ST, Vx. -/
def Obligations.TimersAreReadAndWritten : Prop :=
  EncodedAs 0xF0FF 0xF007 (fun w => .ldVxDT (xField w)) ∧ EncodedAs 0xF0FF 0xF015 (fun w => .ldDTVx (xField w)) ∧
  EncodedAs 0xF0FF 0xF018 (fun w => .ldSTVx (xField w)) ∧
  ∀ (x : RegIdx) (s : State),
    (∃ t, exec (.ldVxDT x) s = .next t ∧ (∀ j, t.getV j = if j = x then s.dt else s.getV j) ∧ t.pc = s.pc + 2 ∧
      SameBut [.v, .pc] s t) ∧
    (∃ t, exec (.ldDTVx x) s = .next t ∧ t.dt = s.getV x ∧ t.pc = s.pc + 2 ∧ SameBut [.dt, .pc] s t) ∧
    (∃ t, exec (.ldSTVx x) s = .next t ∧ t.st = s.getV x ∧ t.pc = s.pc + 2 ∧ SameBut [.st, .pc] s t)

/-- R184 SKP Vx and R185 SKNP Vx; that an index above 0xF reads as not pressed (R187) is the spec's decision D11. -/
def Obligations.KeySkips : Prop :=
  EncodedAs 0xF0FF 0xE09E (fun w => .skp (xField w)) ∧ EncodedAs 0xF0FF 0xE0A1 (fun w => .sknp (xField w)) ∧
  ∀ (x : RegIdx) (s : State),
    ∃ t u, exec (.skp x) s = .next t ∧ exec (.sknp x) s = .next u ∧ SameBut [.pc] s t ∧ SameBut [.pc] s u ∧
      ((s.getV x).toNat ≤ 0xF → s.key.getLsbD (s.getV x).toNat = true → t.pc = s.pc + 4 ∧ u.pc = s.pc + 2) ∧
      ((s.getV x).toNat ≤ 0xF → s.key.getLsbD (s.getV x).toNat = false → t.pc = s.pc + 2 ∧ u.pc = s.pc + 4) ∧
      ((s.getV x).toNat > 0xF → t.pc = s.pc + 2 ∧ u.pc = s.pc + 4)

/-- R186 LD Vx, K (no waiting state is the spec's decision D18): with every key up the step changes nothing at all; else
the least key down goes to V[X] and PC advances. -/
def Obligations.KeyWaitTakesTheLowestKey : Prop :=
  EncodedAs 0xF0FF 0xF00A (fun w => .ldVxK (xField w)) ∧
  ∀ (x : RegIdx) (s : State),
    ((∀ k < 16, s.key.getLsbD k = false) → exec (.ldVxK x) s = .next s) ∧
    (∀ k0 < 16, s.key.getLsbD k0 = true → (∀ k < k0, s.key.getLsbD k = false) →
      ∃ t, exec (.ldVxK x) s = .next t ∧ (t.getV x).toNat = k0 ∧ (∀ j, j ≠ x → t.getV j = s.getV j) ∧
        t.pc = s.pc + 2 ∧ SameBut [.v, .pc] s t)
end

