-- ==== Sys2Proof/Laws/Decode.lean ====
section
/-! SUPPORT. Sys2Proof/Laws/Decode.lean: the fields of masked and of encoded words, and the decoder class by class. -/

namespace Sys2Proof

/-! ### The sixteen classes -/

theorem nibble_cases (c : BitVec 4) : c = 0x0#4 ∨ c = 0x1#4 ∨ c = 0x2#4 ∨ c = 0x3#4 ∨ c = 0x4#4 ∨ c = 0x5#4 ∨ c = 0x6#4 ∨
    c = 0x7#4 ∨ c = 0x8#4 ∨ c = 0x9#4 ∨ c = 0xA#4 ∨ c = 0xB#4 ∨ c = 0xC#4 ∨ c = 0xD#4 ∨ c = 0xE#4 ∨ c = 0xF#4 := by
  revert c; decide

/-! ### A field of a word whose mask covers it -/

theorem opClass_of_masked {w m k : Word} (h : w &&& m = k) (hm : m.extractLsb' 12 4 = 0xF#4) :
    opClass w = opClass k := by
  rw [← h, opClass, opClass, BitVec.extractLsb'_and, hm]
  exact (BitVec.and_allOnes (x := BitVec.extractLsb' 12 4 w)).symm

theorem nField_of_masked {w m k : Word} (h : w &&& m = k) (hm : m.extractLsb' 0 4 = 0xF#4) :
    nField w = nField k := by
  rw [← h, nField, nField, BitVec.extractLsb'_and, hm]
  exact (BitVec.and_allOnes (x := BitVec.extractLsb' 0 4 w)).symm

theorem nnField_of_masked {w m k : Word} (h : w &&& m = k) (hm : m.extractLsb' 0 8 = 0xFF#8) :
    nnField w = nnField k := by
  rw [← h, nnField, nnField, BitVec.extractLsb'_and, hm]
  exact (BitVec.and_allOnes (x := BitVec.extractLsb' 0 8 w)).symm

/-! ### Appended fields, at any widths -/

section
variable {n m : Nat}

theorem low_append (a : BitVec n) (b : BitVec m) : (a ++ b).extractLsb' 0 m = b := by
  ext i hi
  simp [BitVec.getLsbD_append, hi]

theorem high_append (a : BitVec n) (b : BitVec m) : (a ++ b).extractLsb' m n = a := by
  ext i hi
  simp [BitVec.getLsbD_append, hi]

theorem inner_append (a : BitVec n) (b : BitVec m) (s l : Nat) (h : s + l ≤ m) :
    (a ++ b).extractLsb' s l = b.extractLsb' s l := by
  ext i hi
  simp [BitVec.getLsbD_append, show s + i < m by omega]

theorem append_fields (w : BitVec (n + m)) : w.extractLsb' m n ++ w.extractLsb' 0 m = w := by
  ext i hi
  simp only [BitVec.getElem_append, BitVec.getElem_extractLsb']
  split
  · simp [BitVec.getLsbD_eq_getElem, hi]
  · simp [show m + (i - m) = i by omega, BitVec.getLsbD_eq_getElem, hi]

end

/-! ### A word put back together from its fields -/

theorem encA_fields (w : Word) : encA (opClass w) (nnnField w) = w := append_fields (n := 4) (m := 12) w

theorem nnn_split (w : Word) : BitVec.ofFin (w := 4) (xField w) ++ nnField w = nnnField w := by
  have h := append_fields (n := 4) (m := 8) (nnnField w)
  have hx : (nnnField w).extractLsb' 8 4 = BitVec.ofFin (w := 4) (xField w) := by
    show (nnnField w).extractLsb' 8 4 = w.extractLsb' 8 4
    ext i hi
    simp [nnnField]
  have hn : (nnnField w).extractLsb' 0 8 = nnField w := by
    ext i hi
    simp [nnnField, nnField]
  rw [hx, hn] at h
  exact h

theorem nn_split (w : Word) : BitVec.ofFin (w := 4) (yField w) ++ nField w = nnField w := by
  have h := append_fields (n := 4) (m := 4) (nnField w)
  have hy : (nnField w).extractLsb' 4 4 = BitVec.ofFin (w := 4) (yField w) := by
    show (nnField w).extractLsb' 4 4 = w.extractLsb' 4 4
    ext i hi
    simp [nnField]
  have hn : (nnField w).extractLsb' 0 4 = nField w := by
    ext i hi
    simp [nnField, nField]
  rw [hy, hn] at h
  exact h

theorem encXI_fields (w : Word) : encXI (opClass w) (xField w) (nnField w) = w := by
  have h := encA_fields w
  rw [← nnn_split] at h
  exact h

theorem encXYN_fields (w : Word) : encXYN (opClass w) (xField w) (yField w) (nField w) = w := by
  have h := encXI_fields w
  rw [← nn_split] at h
  exact h

/-! ### The fields of an encoded word -/

section
variable (op : BitVec 4) (x y : RegIdx) (n : BitVec 4) (nn : Byte) (nnn : BitVec 12)

@[simp] theorem opClass_encA : opClass (encA op nnn) = op := high_append op nnn

@[simp] theorem nnnField_encA : nnnField (encA op nnn) = nnn := low_append op nnn

theorem encXI_eq : encXI op x nn = encA op (BitVec.ofFin (w := 4) x ++ nn) := rfl

theorem encXYN_eq : encXYN op x y n = encXI op x (BitVec.ofFin (w := 4) y ++ n) := rfl

@[simp] theorem opClass_encXI : opClass (encXI op x nn) = op := opClass_encA ..

@[simp] theorem xField_encXI : xField (encXI op x nn) = x := by
  have h : (encXI op x nn).extractLsb' 8 4 = BitVec.ofFin (w := 4) x :=
    (inner_append op (BitVec.ofFin (w := 4) x ++ nn) 8 4 (by decide)).trans (high_append (BitVec.ofFin (w := 4) x) nn)
  simp [xField, h]

@[simp] theorem nnField_encXI : nnField (encXI op x nn) = nn :=
  (inner_append op (BitVec.ofFin (w := 4) x ++ nn) 0 8 (by decide)).trans (low_append (BitVec.ofFin (w := 4) x) nn)

@[simp] theorem opClass_encXYN : opClass (encXYN op x y n) = op := opClass_encXI ..

@[simp] theorem xField_encXYN : xField (encXYN op x y n) = x := xField_encXI ..

theorem nnField_encXYN : nnField (encXYN op x y n) = BitVec.ofFin (w := 4) y ++ n := nnField_encXI ..

@[simp] theorem yField_encXYN : yField (encXYN op x y n) = y := by
  have h : (nnField (encXYN op x y n)).extractLsb' 4 4 = BitVec.ofFin (w := 4) y := by
    rw [nnField_encXYN]; exact high_append (BitVec.ofFin (w := 4) y) n
  have h2 : (encXYN op x y n).extractLsb' 4 4 = (nnField (encXYN op x y n)).extractLsb' 4 4 := by
    ext i hi
    simp [nnField]
  simp [yField, h2, h]

@[simp] theorem nField_encXYN : nField (encXYN op x y n) = n := by
  have h : (nnField (encXYN op x y n)).extractLsb' 0 4 = n := by
    rw [nnField_encXYN]; exact low_append (BitVec.ofFin (w := 4) y) n
  have h2 : (encXYN op x y n).extractLsb' 0 4 = (nnField (encXYN op x y n)).extractLsb' 0 4 := by
    ext i hi
    simp [nnField]
  rw [nField, h2, h]

end

/-! ### Bytes of a word -/

/-- A word is its two bytes, high byte first. -/
@[simp] theorem wordOfBytes_bytes (w : Word) : wordOfBytes (highByte w) (lowByte w) = w :=
  append_fields (n := 8) (m := 8) w

@[simp] theorem highByte_wordOfBytes (hi lo : Byte) : highByte (wordOfBytes hi lo) = hi := high_append hi lo

@[simp] theorem lowByte_wordOfBytes (hi lo : Byte) : lowByte (wordOfBytes hi lo) = lo := low_append hi lo

/-- The value of a fetched word (R54). -/
theorem wordOfBytes_toNat (hi lo : Byte) : (wordOfBytes hi lo).toNat = hi.toNat * 256 + lo.toNat := by
  have h := Nat.shiftLeft_add_eq_or_of_lt (show lo.toNat < 2 ^ 8 by omega) hi.toNat
  rw [Nat.shiftLeft_eq] at h
  simp only [wordOfBytes, BitVec.toNat_append, Nat.shiftLeft_eq, ← h]

/-- The decoder reads a table word as the word itself (R54). -/
theorem decodeTableWord_eq (nbits w : Nat) : decodeTableWord nbits w = (decode (BitVec.ofNat 16 (w % 2 ^ nbits))).toOption := by
  simp only [decodeTableWord, wordOfBytes_bytes]
  cases decode (BitVec.ofNat 16 (w % 2 ^ nbits)) <;> rfl

end Sys2Proof
end

