-- ==== Sys2Proof/Laws/Memory.lean ====
section
/-! SUPPORT. Sys2Proof/Laws/Memory.lean: what the memory operations do, and that each keeps the canonical form. -/

namespace Sys2Proof.Machine

/-! ### Read after write -/

theorem readByte_insertCell (a : Nat) (u : Byte) (c : Nat) : ∀ m : Memory, (∀ d ∈ m, d.1 ≠ a) →
    readByte (insertCell m a u) c = if c = a then u else readByte m c := by
  intro m
  induction m with
  | nil => intro; simp [insertCell, readByte]
  | cons d m ih =>
    intro h
    have hd : d.1 ≠ a := h d (by simp)
    have hm : ∀ e ∈ m, e.1 ≠ a := fun e he => h e (by simp [he])
    simp only [insertCell]
    split
    · simp [readByte]
    · simp only [readByte, ih hm]
      grind

theorem readByte_filter (a c : Nat) : ∀ m : Memory,
    readByte (m.filter (fun d => decide (d.1 ≠ a))) c = if c = a then unlistedByte a else readByte m c := by
  intro m
  induction m with
  | nil => simp [readByte]; grind
  | cons d m ih =>
    simp only [List.filter_cons]
    split <;> simp only [readByte] <;> grind

/-- A byte reads as what was last stored at its address, and every other byte as before (R60). -/
theorem readByte_writeByte (m : Memory) (a : Nat) (u : Byte) (c : Nat) :
    readByte (writeByte m a u) c = if c = a then u else readByte m c := by
  simp only [writeByte]
  split
  · rw [readByte_filter]; grind
  · rw [readByte_insertCell _ _ _ _ (by simp), readByte_filter]; grind

/-- A run of stores at ascending addresses changes exactly the bytes it stores. -/
theorem readByte_writeBytes (us : List Byte) : ∀ (m : Memory) (a c : Nat),
    readByte (writeBytes m a us) c = if a ≤ c ∧ c < a + us.length then us.getD (c - a) 0 else readByte m c := by
  induction us with
  | nil => intro m a c; simp [writeBytes]
  | cons u us ih =>
    intro m a c
    rw [writeBytes, ih, readByte_writeByte]
    rcases Nat.lt_trichotomy c a with h | rfl | h
    · simp [show ¬ a + 1 ≤ c by omega, show ¬ a ≤ c by omega, show ¬ c = a by omega]
    · simp
    · obtain ⟨d, rfl⟩ : ∃ d, c = a + 1 + d := ⟨c - (a + 1), by omega⟩
      have h1 : a + 1 + d - a = d + 1 := by omega
      have h2 : a + 1 + d - (a + 1) = d := by omega
      have h3 : ¬ a + 1 + d = a := by omega
      have h4 : (a + 1 + d < a + 1 + us.length) = (a + 1 + d < a + (us.length + 1)) := by
        rw [show a + 1 + us.length = a + (us.length + 1) by omega]
      simp only [h1, h2, h3, h4, List.length_cons, List.getD_cons_succ, if_false]
      simp [show a ≤ a + 1 + d by omega]

@[simp] theorem length_readBytes (m : Memory) : ∀ (n a : Nat), (readBytes m a n).length = n := by
  intro n
  induction n with
  | zero => simp [readBytes]
  | succ n ih => simp [readBytes, ih]

theorem getD_readBytes (m : Memory) : ∀ (n a k : Nat), k < n → (readBytes m a n).getD k 0 = readByte m (a + k) := by
  intro n
  induction n with
  | zero => intro a k h; omega
  | succ n ih =>
    intro a k h
    cases k with
    | zero => simp [readBytes]
    | succ k => rw [readBytes, List.getD_cons_succ, ih _ _ (by omega)]; congr 1; omega

/-! ### The canonical form -/

/-- The canonical form as a proposition. -/
theorem Memory.wf_iff (m : Memory) : Memory.wf m = true ↔
    m.Pairwise (fun c d => c.1 < d.1) ∧ ∀ c ∈ m, c.1 ≤ 0xFFF ∧ c.2 ≠ unlistedByte c.1 := by
  simp [Memory.wf]

theorem Memory.wf_nil : Memory.wf [] = true := by decide

theorem mem_insertCell (a : Nat) (u : Byte) : ∀ (m : Memory) (d : Host.Cell),
    d ∈ insertCell m a u ↔ d = (a, u) ∨ d ∈ m := by
  intro m
  induction m with
  | nil => intro d; simp [insertCell]
  | cons e m ih =>
    intro d
    simp only [insertCell]
    split
    · simp
    · simp only [List.mem_cons, ih]; tauto

theorem pairwise_insertCell (a : Nat) (u : Byte) : ∀ m : Memory, (∀ d ∈ m, d.1 ≠ a) →
    m.Pairwise (fun c d => c.1 < d.1) → (insertCell m a u).Pairwise (fun c d => c.1 < d.1) := by
  intro m
  induction m with
  | nil => intro _ _; simp [insertCell]
  | cons e m ih =>
    intro h hp
    rw [List.pairwise_cons] at hp
    have he : e.1 ≠ a := h e (by simp)
    simp only [insertCell]
    split
    · rename_i hlt
      refine List.pairwise_cons.2 ⟨fun d hd => ?_, List.pairwise_cons.2 hp⟩
      rcases List.mem_cons.1 hd with rfl | hd
      · exact hlt
      · exact Nat.lt_trans hlt (hp.1 d hd)
    · rename_i hlt
      refine List.pairwise_cons.2 ⟨fun d hd => ?_, ih (fun d hd => h d (by simp [hd])) hp.2⟩
      rcases (mem_insertCell a u m d).1 hd with rfl | hd
      · show e.1 < a
        have : ¬ a < e.1 := hlt
        omega
      · exact hp.1 d hd

/-- A store inside the 4096 bytes keeps the canonical form. -/
theorem Memory.wf_writeByte (m : Memory) (a : Nat) (u : Byte) (h : Memory.wf m = true) (ha : a ≤ 0xFFF) :
    Memory.wf (writeByte m a u) = true := by
  rw [Memory.wf_iff] at *
  obtain ⟨hp, hc⟩ := h
  have hp' := hp.filter (fun c => decide (c.1 ≠ a))
  simp only [writeByte]
  split
  · exact ⟨hp', fun c hc' => hc c (List.mem_filter.1 hc').1⟩
  · rename_i hu
    refine ⟨pairwise_insertCell _ _ _ (by simp) hp', fun c hc' => ?_⟩
    rcases (mem_insertCell _ _ _ _).1 hc' with rfl | hc'
    · exact ⟨ha, hu⟩
    · exact hc c (List.mem_filter.1 hc').1

/-- A run of stores that passes the range check keeps the canonical form. -/
theorem Memory.wf_writeBytes (us : List Byte) : ∀ (m : Memory) (a : Nat), Memory.wf m = true →
    a + us.length ≤ 0x1000 → Memory.wf (writeBytes m a us) = true := by
  induction us with
  | nil => intro m a h _; exact h
  | cons u us ih =>
    intro m a h ha
    simp only [List.length_cons] at ha
    exact ih _ _ (Memory.wf_writeByte m a u h (by omega)) (by omega)

theorem Memory.wf_reset : Memory.wf State.reset.mem = true := Memory.wf_nil

/-- The reset memory reads as its reset contents. -/
@[simp] theorem readByte_nil (a : Nat) : readByte [] a = unlistedByte a := rfl

/-! ### The range check and the fetch -/

/-- The range check of R52 as an inequality. -/
@[simp] theorem inRange_iff (a n : Nat) : inRange a n = true ↔ n = 0 ∨ a + n ≤ 0x1000 := by
  simp only [inRange, decide_eq_true_eq]; omega

/-- The fetch (R54, R80): high byte first, and nothing to fetch when PC + 1 is above 0xFFF. -/
theorem fetchWord_eq (s : State) : fetchWord s =
    if s.pc.toNat + 1 ≤ 0xFFF then some (wordOfBytes (readByte s.mem s.pc.toNat) (readByte s.mem (s.pc.toNat + 1)))
    else none := by
  have : (inRange s.pc.toNat 2 = true) ↔ s.pc.toNat + 1 ≤ 0xFFF := by simp only [inRange_iff]; omega
  simp only [fetchWord, this]

end Sys2Proof.Machine
end

