-- ==== Sys2Proof/Laws/State.lean ====
section
/-! SUPPORT. Sys2Proof/Laws/State.lean: one lemma per field of State per named update, so that no later proof unfolds an
update; the same for the three accessors `getV`, `stackEntry` and `pixel`. -/

namespace Sys2Proof.Machine

variable (s : State)

/-! ### `setV` -/

@[simp] theorem State.setV_v (x : RegIdx) (b : Byte) : (s.setV x b).v = s.v.set x.val b := rfl
@[simp] theorem State.setV_i (x : RegIdx) (b : Byte) : (s.setV x b).i = s.i := rfl
@[simp] theorem State.setV_pc (x : RegIdx) (b : Byte) : (s.setV x b).pc = s.pc := rfl
@[simp] theorem State.setV_stack (x : RegIdx) (b : Byte) : (s.setV x b).stack = s.stack := rfl
@[simp] theorem State.setV_sp (x : RegIdx) (b : Byte) : (s.setV x b).sp = s.sp := rfl
@[simp] theorem State.setV_dt (x : RegIdx) (b : Byte) : (s.setV x b).dt = s.dt := rfl
@[simp] theorem State.setV_st (x : RegIdx) (b : Byte) : (s.setV x b).st = s.st := rfl
@[simp] theorem State.setV_fb (x : RegIdx) (b : Byte) : (s.setV x b).fb = s.fb := rfl
@[simp] theorem State.setV_key (x : RegIdx) (b : Byte) : (s.setV x b).key = s.key := rfl
@[simp] theorem State.setV_mem (x : RegIdx) (b : Byte) : (s.setV x b).mem = s.mem := rfl
@[simp] theorem State.setV_fault (x : RegIdx) (b : Byte) : (s.setV x b).fault = s.fault := rfl
@[simp] theorem State.setV_draws (x : RegIdx) (b : Byte) : (s.setV x b).draws = s.draws := rfl
@[simp] theorem State.setV_stackEntry (x : RegIdx) (b : Byte) (k : Fin 16) : (s.setV x b).stackEntry k = s.stackEntry k := rfl
@[simp] theorem State.setV_pixel (x : RegIdx) (b : Byte) (p : Nat) : (s.setV x b).pixel p = s.pixel p := rfl

/-! ### `setFlag` -/

@[simp] theorem State.setFlag_v (f : Bool) : (s.setFlag f).v = s.v.set VF.val (if f then 0x01 else 0x00) := rfl
@[simp] theorem State.setFlag_i (f : Bool) : (s.setFlag f).i = s.i := rfl
@[simp] theorem State.setFlag_pc (f : Bool) : (s.setFlag f).pc = s.pc := rfl
@[simp] theorem State.setFlag_stack (f : Bool) : (s.setFlag f).stack = s.stack := rfl
@[simp] theorem State.setFlag_sp (f : Bool) : (s.setFlag f).sp = s.sp := rfl
@[simp] theorem State.setFlag_dt (f : Bool) : (s.setFlag f).dt = s.dt := rfl
@[simp] theorem State.setFlag_st (f : Bool) : (s.setFlag f).st = s.st := rfl
@[simp] theorem State.setFlag_fb (f : Bool) : (s.setFlag f).fb = s.fb := rfl
@[simp] theorem State.setFlag_key (f : Bool) : (s.setFlag f).key = s.key := rfl
@[simp] theorem State.setFlag_mem (f : Bool) : (s.setFlag f).mem = s.mem := rfl
@[simp] theorem State.setFlag_fault (f : Bool) : (s.setFlag f).fault = s.fault := rfl
@[simp] theorem State.setFlag_draws (f : Bool) : (s.setFlag f).draws = s.draws := rfl
@[simp] theorem State.setFlag_stackEntry (f : Bool) (k : Fin 16) : (s.setFlag f).stackEntry k = s.stackEntry k := rfl
@[simp] theorem State.setFlag_pixel (f : Bool) (p : Nat) : (s.setFlag f).pixel p = s.pixel p := rfl

/-! ### `setI` -/

@[simp] theorem State.setI_v (a : Word) : (s.setI a).v = s.v := rfl
@[simp] theorem State.setI_i (a : Word) : (s.setI a).i = a := rfl
@[simp] theorem State.setI_pc (a : Word) : (s.setI a).pc = s.pc := rfl
@[simp] theorem State.setI_stack (a : Word) : (s.setI a).stack = s.stack := rfl
@[simp] theorem State.setI_sp (a : Word) : (s.setI a).sp = s.sp := rfl
@[simp] theorem State.setI_dt (a : Word) : (s.setI a).dt = s.dt := rfl
@[simp] theorem State.setI_st (a : Word) : (s.setI a).st = s.st := rfl
@[simp] theorem State.setI_fb (a : Word) : (s.setI a).fb = s.fb := rfl
@[simp] theorem State.setI_key (a : Word) : (s.setI a).key = s.key := rfl
@[simp] theorem State.setI_mem (a : Word) : (s.setI a).mem = s.mem := rfl
@[simp] theorem State.setI_fault (a : Word) : (s.setI a).fault = s.fault := rfl
@[simp] theorem State.setI_draws (a : Word) : (s.setI a).draws = s.draws := rfl
@[simp] theorem State.setI_getV (a : Word) (j : RegIdx) : (s.setI a).getV j = s.getV j := rfl
@[simp] theorem State.setI_stackEntry (a : Word) (k : Fin 16) : (s.setI a).stackEntry k = s.stackEntry k := rfl
@[simp] theorem State.setI_pixel (a : Word) (p : Nat) : (s.setI a).pixel p = s.pixel p := rfl

/-! ### `bumpI` -/

@[simp] theorem State.bumpI_v (x : RegIdx) : (s.bumpI x).v = s.v := rfl
@[simp] theorem State.bumpI_i (x : RegIdx) : (s.bumpI x).i = s.i + BitVec.ofNat 16 (x.val + 1) := rfl
@[simp] theorem State.bumpI_pc (x : RegIdx) : (s.bumpI x).pc = s.pc := rfl
@[simp] theorem State.bumpI_stack (x : RegIdx) : (s.bumpI x).stack = s.stack := rfl
@[simp] theorem State.bumpI_sp (x : RegIdx) : (s.bumpI x).sp = s.sp := rfl
@[simp] theorem State.bumpI_dt (x : RegIdx) : (s.bumpI x).dt = s.dt := rfl
@[simp] theorem State.bumpI_st (x : RegIdx) : (s.bumpI x).st = s.st := rfl
@[simp] theorem State.bumpI_fb (x : RegIdx) : (s.bumpI x).fb = s.fb := rfl
@[simp] theorem State.bumpI_key (x : RegIdx) : (s.bumpI x).key = s.key := rfl
@[simp] theorem State.bumpI_mem (x : RegIdx) : (s.bumpI x).mem = s.mem := rfl
@[simp] theorem State.bumpI_fault (x : RegIdx) : (s.bumpI x).fault = s.fault := rfl
@[simp] theorem State.bumpI_draws (x : RegIdx) : (s.bumpI x).draws = s.draws := rfl
@[simp] theorem State.bumpI_getV (x : RegIdx) (j : RegIdx) : (s.bumpI x).getV j = s.getV j := rfl
@[simp] theorem State.bumpI_stackEntry (x : RegIdx) (k : Fin 16) : (s.bumpI x).stackEntry k = s.stackEntry k := rfl
@[simp] theorem State.bumpI_pixel (x : RegIdx) (p : Nat) : (s.bumpI x).pixel p = s.pixel p := rfl

/-! ### `jumpTo` -/

@[simp] theorem State.jumpTo_v (a : Word) : (s.jumpTo a).v = s.v := rfl
@[simp] theorem State.jumpTo_i (a : Word) : (s.jumpTo a).i = s.i := rfl
@[simp] theorem State.jumpTo_pc (a : Word) : (s.jumpTo a).pc = a := rfl
@[simp] theorem State.jumpTo_stack (a : Word) : (s.jumpTo a).stack = s.stack := rfl
@[simp] theorem State.jumpTo_sp (a : Word) : (s.jumpTo a).sp = s.sp := rfl
@[simp] theorem State.jumpTo_dt (a : Word) : (s.jumpTo a).dt = s.dt := rfl
@[simp] theorem State.jumpTo_st (a : Word) : (s.jumpTo a).st = s.st := rfl
@[simp] theorem State.jumpTo_fb (a : Word) : (s.jumpTo a).fb = s.fb := rfl
@[simp] theorem State.jumpTo_key (a : Word) : (s.jumpTo a).key = s.key := rfl
@[simp] theorem State.jumpTo_mem (a : Word) : (s.jumpTo a).mem = s.mem := rfl
@[simp] theorem State.jumpTo_fault (a : Word) : (s.jumpTo a).fault = s.fault := rfl
@[simp] theorem State.jumpTo_draws (a : Word) : (s.jumpTo a).draws = s.draws := rfl
@[simp] theorem State.jumpTo_getV (a : Word) (j : RegIdx) : (s.jumpTo a).getV j = s.getV j := rfl
@[simp] theorem State.jumpTo_stackEntry (a : Word) (k : Fin 16) : (s.jumpTo a).stackEntry k = s.stackEntry k := rfl
@[simp] theorem State.jumpTo_pixel (a : Word) (p : Nat) : (s.jumpTo a).pixel p = s.pixel p := rfl

/-! ### `advance` -/

@[simp] theorem State.advance_v : (s.advance).v = s.v := rfl
@[simp] theorem State.advance_i : (s.advance).i = s.i := rfl
@[simp] theorem State.advance_pc : (s.advance).pc = s.pc + 2 := rfl
@[simp] theorem State.advance_stack : (s.advance).stack = s.stack := rfl
@[simp] theorem State.advance_sp : (s.advance).sp = s.sp := rfl
@[simp] theorem State.advance_dt : (s.advance).dt = s.dt := rfl
@[simp] theorem State.advance_st : (s.advance).st = s.st := rfl
@[simp] theorem State.advance_fb : (s.advance).fb = s.fb := rfl
@[simp] theorem State.advance_key : (s.advance).key = s.key := rfl
@[simp] theorem State.advance_mem : (s.advance).mem = s.mem := rfl
@[simp] theorem State.advance_fault : (s.advance).fault = s.fault := rfl
@[simp] theorem State.advance_draws : (s.advance).draws = s.draws := rfl
@[simp] theorem State.advance_getV (j : RegIdx) : (s.advance).getV j = s.getV j := rfl
@[simp] theorem State.advance_stackEntry (k : Fin 16) : (s.advance).stackEntry k = s.stackEntry k := rfl
@[simp] theorem State.advance_pixel (p : Nat) : (s.advance).pixel p = s.pixel p := rfl

/-! ### `skipIf` -/

@[simp] theorem State.skipIf_v (c : Bool) : (s.skipIf c).v = s.v := rfl
@[simp] theorem State.skipIf_i (c : Bool) : (s.skipIf c).i = s.i := rfl
@[simp] theorem State.skipIf_pc (c : Bool) : (s.skipIf c).pc = if c then s.pc + 4 else s.pc + 2 := rfl
@[simp] theorem State.skipIf_stack (c : Bool) : (s.skipIf c).stack = s.stack := rfl
@[simp] theorem State.skipIf_sp (c : Bool) : (s.skipIf c).sp = s.sp := rfl
@[simp] theorem State.skipIf_dt (c : Bool) : (s.skipIf c).dt = s.dt := rfl
@[simp] theorem State.skipIf_st (c : Bool) : (s.skipIf c).st = s.st := rfl
@[simp] theorem State.skipIf_fb (c : Bool) : (s.skipIf c).fb = s.fb := rfl
@[simp] theorem State.skipIf_key (c : Bool) : (s.skipIf c).key = s.key := rfl
@[simp] theorem State.skipIf_mem (c : Bool) : (s.skipIf c).mem = s.mem := rfl
@[simp] theorem State.skipIf_fault (c : Bool) : (s.skipIf c).fault = s.fault := rfl
@[simp] theorem State.skipIf_draws (c : Bool) : (s.skipIf c).draws = s.draws := rfl
@[simp] theorem State.skipIf_getV (c : Bool) (j : RegIdx) : (s.skipIf c).getV j = s.getV j := rfl
@[simp] theorem State.skipIf_stackEntry (c : Bool) (k : Fin 16) : (s.skipIf c).stackEntry k = s.stackEntry k := rfl
@[simp] theorem State.skipIf_pixel (c : Bool) (p : Nat) : (s.skipIf c).pixel p = s.pixel p := rfl

/-! ### `setDT` -/

@[simp] theorem State.setDT_v (b : Byte) : (s.setDT b).v = s.v := rfl
@[simp] theorem State.setDT_i (b : Byte) : (s.setDT b).i = s.i := rfl
@[simp] theorem State.setDT_pc (b : Byte) : (s.setDT b).pc = s.pc := rfl
@[simp] theorem State.setDT_stack (b : Byte) : (s.setDT b).stack = s.stack := rfl
@[simp] theorem State.setDT_sp (b : Byte) : (s.setDT b).sp = s.sp := rfl
@[simp] theorem State.setDT_dt (b : Byte) : (s.setDT b).dt = b := rfl
@[simp] theorem State.setDT_st (b : Byte) : (s.setDT b).st = s.st := rfl
@[simp] theorem State.setDT_fb (b : Byte) : (s.setDT b).fb = s.fb := rfl
@[simp] theorem State.setDT_key (b : Byte) : (s.setDT b).key = s.key := rfl
@[simp] theorem State.setDT_mem (b : Byte) : (s.setDT b).mem = s.mem := rfl
@[simp] theorem State.setDT_fault (b : Byte) : (s.setDT b).fault = s.fault := rfl
@[simp] theorem State.setDT_draws (b : Byte) : (s.setDT b).draws = s.draws := rfl
@[simp] theorem State.setDT_getV (b : Byte) (j : RegIdx) : (s.setDT b).getV j = s.getV j := rfl
@[simp] theorem State.setDT_stackEntry (b : Byte) (k : Fin 16) : (s.setDT b).stackEntry k = s.stackEntry k := rfl
@[simp] theorem State.setDT_pixel (b : Byte) (p : Nat) : (s.setDT b).pixel p = s.pixel p := rfl

/-! ### `setST` -/

@[simp] theorem State.setST_v (b : Byte) : (s.setST b).v = s.v := rfl
@[simp] theorem State.setST_i (b : Byte) : (s.setST b).i = s.i := rfl
@[simp] theorem State.setST_pc (b : Byte) : (s.setST b).pc = s.pc := rfl
@[simp] theorem State.setST_stack (b : Byte) : (s.setST b).stack = s.stack := rfl
@[simp] theorem State.setST_sp (b : Byte) : (s.setST b).sp = s.sp := rfl
@[simp] theorem State.setST_dt (b : Byte) : (s.setST b).dt = s.dt := rfl
@[simp] theorem State.setST_st (b : Byte) : (s.setST b).st = b := rfl
@[simp] theorem State.setST_fb (b : Byte) : (s.setST b).fb = s.fb := rfl
@[simp] theorem State.setST_key (b : Byte) : (s.setST b).key = s.key := rfl
@[simp] theorem State.setST_mem (b : Byte) : (s.setST b).mem = s.mem := rfl
@[simp] theorem State.setST_fault (b : Byte) : (s.setST b).fault = s.fault := rfl
@[simp] theorem State.setST_draws (b : Byte) : (s.setST b).draws = s.draws := rfl
@[simp] theorem State.setST_getV (b : Byte) (j : RegIdx) : (s.setST b).getV j = s.getV j := rfl
@[simp] theorem State.setST_stackEntry (b : Byte) (k : Fin 16) : (s.setST b).stackEntry k = s.stackEntry k := rfl
@[simp] theorem State.setST_pixel (b : Byte) (p : Nat) : (s.setST b).pixel p = s.pixel p := rfl

/-! ### `setFB` -/

@[simp] theorem State.setFB_v (fb : FrameBuffer) : (s.setFB fb).v = s.v := rfl
@[simp] theorem State.setFB_i (fb : FrameBuffer) : (s.setFB fb).i = s.i := rfl
@[simp] theorem State.setFB_pc (fb : FrameBuffer) : (s.setFB fb).pc = s.pc := rfl
@[simp] theorem State.setFB_stack (fb : FrameBuffer) : (s.setFB fb).stack = s.stack := rfl
@[simp] theorem State.setFB_sp (fb : FrameBuffer) : (s.setFB fb).sp = s.sp := rfl
@[simp] theorem State.setFB_dt (fb : FrameBuffer) : (s.setFB fb).dt = s.dt := rfl
@[simp] theorem State.setFB_st (fb : FrameBuffer) : (s.setFB fb).st = s.st := rfl
@[simp] theorem State.setFB_fb (fb : FrameBuffer) : (s.setFB fb).fb = fb := rfl
@[simp] theorem State.setFB_key (fb : FrameBuffer) : (s.setFB fb).key = s.key := rfl
@[simp] theorem State.setFB_mem (fb : FrameBuffer) : (s.setFB fb).mem = s.mem := rfl
@[simp] theorem State.setFB_fault (fb : FrameBuffer) : (s.setFB fb).fault = s.fault := rfl
@[simp] theorem State.setFB_draws (fb : FrameBuffer) : (s.setFB fb).draws = s.draws := rfl
@[simp] theorem State.setFB_getV (fb : FrameBuffer) (j : RegIdx) : (s.setFB fb).getV j = s.getV j := rfl
@[simp] theorem State.setFB_stackEntry (fb : FrameBuffer) (k : Fin 16) : (s.setFB fb).stackEntry k = s.stackEntry k := rfl

/-! ### `setMem` -/

@[simp] theorem State.setMem_v (m : Memory) : (s.setMem m).v = s.v := rfl
@[simp] theorem State.setMem_i (m : Memory) : (s.setMem m).i = s.i := rfl
@[simp] theorem State.setMem_pc (m : Memory) : (s.setMem m).pc = s.pc := rfl
@[simp] theorem State.setMem_stack (m : Memory) : (s.setMem m).stack = s.stack := rfl
@[simp] theorem State.setMem_sp (m : Memory) : (s.setMem m).sp = s.sp := rfl
@[simp] theorem State.setMem_dt (m : Memory) : (s.setMem m).dt = s.dt := rfl
@[simp] theorem State.setMem_st (m : Memory) : (s.setMem m).st = s.st := rfl
@[simp] theorem State.setMem_fb (m : Memory) : (s.setMem m).fb = s.fb := rfl
@[simp] theorem State.setMem_key (m : Memory) : (s.setMem m).key = s.key := rfl
@[simp] theorem State.setMem_mem (m : Memory) : (s.setMem m).mem = m := rfl
@[simp] theorem State.setMem_fault (m : Memory) : (s.setMem m).fault = s.fault := rfl
@[simp] theorem State.setMem_draws (m : Memory) : (s.setMem m).draws = s.draws := rfl
@[simp] theorem State.setMem_getV (m : Memory) (j : RegIdx) : (s.setMem m).getV j = s.getV j := rfl
@[simp] theorem State.setMem_stackEntry (m : Memory) (k : Fin 16) : (s.setMem m).stackEntry k = s.stackEntry k := rfl
@[simp] theorem State.setMem_pixel (m : Memory) (p : Nat) : (s.setMem m).pixel p = s.pixel p := rfl

/-! ### `nextDraw` -/

@[simp] theorem State.nextDraw_v : (s.nextDraw).v = s.v := rfl
@[simp] theorem State.nextDraw_i : (s.nextDraw).i = s.i := rfl
@[simp] theorem State.nextDraw_pc : (s.nextDraw).pc = s.pc := rfl
@[simp] theorem State.nextDraw_stack : (s.nextDraw).stack = s.stack := rfl
@[simp] theorem State.nextDraw_sp : (s.nextDraw).sp = s.sp := rfl
@[simp] theorem State.nextDraw_dt : (s.nextDraw).dt = s.dt := rfl
@[simp] theorem State.nextDraw_st : (s.nextDraw).st = s.st := rfl
@[simp] theorem State.nextDraw_fb : (s.nextDraw).fb = s.fb := rfl
@[simp] theorem State.nextDraw_key : (s.nextDraw).key = s.key := rfl
@[simp] theorem State.nextDraw_mem : (s.nextDraw).mem = s.mem := rfl
@[simp] theorem State.nextDraw_fault : (s.nextDraw).fault = s.fault := rfl
@[simp] theorem State.nextDraw_draws : (s.nextDraw).draws = s.draws + 1 := rfl
@[simp] theorem State.nextDraw_getV (j : RegIdx) : (s.nextDraw).getV j = s.getV j := rfl
@[simp] theorem State.nextDraw_stackEntry (k : Fin 16) : (s.nextDraw).stackEntry k = s.stackEntry k := rfl
@[simp] theorem State.nextDraw_pixel (p : Nat) : (s.nextDraw).pixel p = s.pixel p := rfl

/-! ### `setRegs` -/

@[simp] theorem State.setRegs_v (us : List Byte) : (s.setRegs us).v = Machine.setRegs s.v 0 us := rfl
@[simp] theorem State.setRegs_i (us : List Byte) : (s.setRegs us).i = s.i := rfl
@[simp] theorem State.setRegs_pc (us : List Byte) : (s.setRegs us).pc = s.pc := rfl
@[simp] theorem State.setRegs_stack (us : List Byte) : (s.setRegs us).stack = s.stack := rfl
@[simp] theorem State.setRegs_sp (us : List Byte) : (s.setRegs us).sp = s.sp := rfl
@[simp] theorem State.setRegs_dt (us : List Byte) : (s.setRegs us).dt = s.dt := rfl
@[simp] theorem State.setRegs_st (us : List Byte) : (s.setRegs us).st = s.st := rfl
@[simp] theorem State.setRegs_fb (us : List Byte) : (s.setRegs us).fb = s.fb := rfl
@[simp] theorem State.setRegs_key (us : List Byte) : (s.setRegs us).key = s.key := rfl
@[simp] theorem State.setRegs_mem (us : List Byte) : (s.setRegs us).mem = s.mem := rfl
@[simp] theorem State.setRegs_fault (us : List Byte) : (s.setRegs us).fault = s.fault := rfl
@[simp] theorem State.setRegs_draws (us : List Byte) : (s.setRegs us).draws = s.draws := rfl
@[simp] theorem State.setRegs_stackEntry (us : List Byte) (k : Fin 16) : (s.setRegs us).stackEntry k = s.stackEntry k := rfl
@[simp] theorem State.setRegs_pixel (us : List Byte) (p : Nat) : (s.setRegs us).pixel p = s.pixel p := rfl

/-! ### The register file -/

/-- A register reads as what was last written to it. -/
@[simp] theorem State.setV_getV (x : RegIdx) (b : Byte) (j : RegIdx) :
    (s.setV x b).getV j = if j = x then b else s.getV j := by
  simp only [State.getV, State.setV, Vector.getElem_set]
  grind

/-- The flag write is a write of VF. -/
@[simp] theorem State.setFlag_getV (f : Bool) (j : RegIdx) :
    (s.setFlag f).getV j = if j = VF then (if f then 0x01 else 0x00) else s.getV j := State.setV_getV ..

/-- The register file after a list of bytes was put into it from register `k` on. -/
theorem getElem_setRegs (us : List Byte) : ∀ (v : Vector Byte 16) (k j : Nat) (hj : j < 16),
    (Machine.setRegs v k us)[j] = if k ≤ j ∧ j < k + us.length then us.getD (j - k) 0 else v[j] := by
  induction us with
  | nil => intro v k j hj; simp [Machine.setRegs]
  | cons u us ih =>
    intro v k j hj
    rw [Machine.setRegs, ih, Vector.getElem_setIfInBounds]
    rcases Nat.lt_trichotomy j k with h | rfl | h
    · simp [show ¬ k + 1 ≤ j by omega, show ¬ k ≤ j by omega, show ¬ k = j by omega]
    · simp
    · obtain ⟨d, rfl⟩ : ∃ d, j = k + 1 + d := ⟨j - (k + 1), by omega⟩
      have h1 : k + 1 + d - k = d + 1 := by omega
      have h2 : k + 1 + d - (k + 1) = d := by omega
      have h3 : ¬ k = k + 1 + d := by omega
      have h4 : (k + 1 + d < k + 1 + us.length) = (k + 1 + d < k + (us.length + 1)) := by
        rw [show k + 1 + us.length = k + (us.length + 1) by omega]
      simp only [h1, h2, h3, h4, List.length_cons, List.getD_cons_succ, if_false]
      simp [show k ≤ k + 1 + d by omega]

/-- FX65's copy: registers 0 to `us.length - 1` take the bytes, the others stay. -/
@[simp] theorem State.setRegs_getV (us : List Byte) (j : RegIdx) :
    (s.setRegs us).getV j = if j.val < us.length then us.getD j.val 0 else s.getV j := by
  simp [State.getV, State.setRegs, getElem_setRegs]

/-- A pixel after the display buffer was replaced. -/
@[simp] theorem State.setFB_pixel (fb : FrameBuffer) (p : Nat) :
    (s.setFB fb).pixel p = pixelAt fb (p % 64) (p / 64) := rfl

end Sys2Proof.Machine
end

