-- ==== Sys2Proof/Laws/Ops.lean ====
section
/-! SUPPORT. Sys2Proof/Laws/Ops.lean: what the stack operations, the operand forms and the flag computations do, each said
once over the unbounded integers of the spec's pseudocode. -/

namespace Sys2Proof.Machine

/-! ### The call stack (R27) -/

/-- The push of R27 below capacity. -/
theorem State.push_of_lt (s : State) (a : Word) (h : s.sp.val < 16) :
    s.push a = some { s with stack := s.stack.set s.sp.val a, sp := ⟨s.sp.val + 1, by omega⟩ } := by
  simp [State.push, h]

/-- The push of R27 at capacity. -/
theorem State.push_of_full (s : State) (a : Word) (h : s.sp.val = 16) : s.push a = none := by
  simp [State.push, h]

/-- The pop of R27 with an entry in use. -/
theorem State.pop_of_pos (s : State) (h : s.sp.val ≠ 0) :
    s.pop = some (s.stack[s.sp.val - 1], { s with sp := ⟨s.sp.val - 1, by omega⟩ }) := by
  rw [State.pop, dif_neg h]

/-- The pop of R27 with none. -/
theorem State.pop_of_empty (s : State) (h : s.sp.val = 0) : s.pop = none := by
  rw [State.pop, dif_pos h]

/-! ### Operands -/

@[simp] theorem addrOperand_toNat (nnn : BitVec 12) : (addrOperand nnn).toNat = nnn.toNat := by
  simp only [addrOperand, BitVec.toNat_setWidth]; omega

@[simp] theorem zext16_toNat (b : Byte) : (zext16 b).toNat = b.toNat := by
  simp only [zext16, BitVec.toNat_setWidth]; omega

@[simp] theorem glyphAddr_toNat (b : Byte) : (glyphAddr b).toNat = b.toNat * 5 := by
  have := b.isLt
  simp only [glyphAddr, BitVec.toNat_mul, zext16_toNat, show (5 : Word).toNat = 5 from rfl]; omega

@[simp] theorem length_bcdDigits (b : Byte) : (bcdDigits b).length = 3 := rfl

@[simp] theorem State.length_regRange (s : State) (x : RegIdx) : (s.regRange x).length = x.val + 1 := by
  simp [State.regRange]

theorem State.getD_regRange (s : State) (x j : RegIdx) (h : j ≤ x) : (s.regRange x).getD j.val 0 = s.getV j := by
  have hj : j.val < x.val + 1 := Nat.lt_succ_of_le h
  simp [State.regRange, State.getV, List.getD_eq_getElem?_getD, hj]

@[simp] theorem State.length_spriteRows (s : State) (n : Nat) : (s.spriteRows n).length = n := by
  simp [State.spriteRows]

theorem State.getD_spriteRows (s : State) (n r : Nat) (h : r < n) :
    (s.spriteRows n).getD r 0 = readByte s.mem (s.i.toNat + r) := getD_readBytes _ _ _ _ h

theorem mem_allKeys (k : RegIdx) : k ∈ allKeys := by revert k; decide

theorem pairwise_allKeys : allKeys.Pairwise (· < ·) := by decide

/-- The first key of FX0A is down and every lower one is up (R186, R215). -/
theorem State.firstPressed_eq_some (s : State) (k : RegIdx) :
    s.firstPressed = some k ↔ s.key.getLsbD k.val = true ∧ ∀ j < k, s.key.getLsbD j.val = false := by
  have hnd := pairwise_allKeys
  simp only [State.firstPressed]
  constructor
  · intro h
    refine ⟨by simpa using List.find?_some h, fun j hj => ?_⟩
    obtain ⟨_, as, bs, hl, hb⟩ := List.find?_eq_some_iff_append.1 h
    have hin : j ∈ as ++ k :: bs := hl ▸ mem_allKeys j
    rw [hl, List.pairwise_append, List.pairwise_cons] at hnd
    rcases List.mem_append.1 hin with h | h
    · simpa using hb j h
    · rcases List.mem_cons.1 h with rfl | h
      · exact absurd hj (lt_irrefl _)
      · exact absurd (hnd.2.1.1 j h) (lt_asymm hj)
  · rintro ⟨hk, hlow⟩
    cases hf : allKeys.find? (fun j => s.key.getLsbD j.val) with
    | none => exact absurd hk (List.find?_eq_none.1 hf k (mem_allKeys k))
    | some j =>
      obtain ⟨hj, as, bs, hl, hb⟩ := List.find?_eq_some_iff_append.1 hf
      have hin : k ∈ as ++ j :: bs := hl ▸ mem_allKeys k
      rw [hl, List.pairwise_append, List.pairwise_cons] at hnd
      rcases List.mem_append.1 hin with h | h
      · exact absurd hk (by simpa using hb k h)
      · rcases List.mem_cons.1 h with rfl | h
        · rfl
        · exact absurd hj (by simp only [hlow j (hnd.2.1.1 k h)]; decide)

/-- FX0A finds no key exactly when all sixteen are up (R186). -/
theorem State.firstPressed_eq_none (s : State) : s.firstPressed = none ↔ ∀ k : RegIdx, s.key.getLsbD k.val = false := by
  simp only [State.firstPressed, List.find?_eq_none, Bool.not_eq_true]
  exact ⟨fun h k => h k (mem_allKeys k), fun h k _ => h k⟩

/-! ### Flags and arithmetic -/

theorem lowBit_eq (x : Byte) : lowBit x = decide (x.toNat % 2 = 1) := by
  revert x; decide

theorem highBit_eq (x : Byte) : highBit x = decide (x.toNat / 128 = 1) := by
  revert x; decide

end Sys2Proof.Machine
end

