-- ==== Sys2Proof/Laws/Display.lean ====
section
/-! SUPPORT. Sys2Proof/Laws/Display.lean: the XOR compositor as one list of sprite pixels with distinct targets; what it
does to a pixel and what it reports. -/

namespace Sys2Proof.Machine

theorem pixelAt_mod (fb : FrameBuffer) (x y : Nat) : pixelAt fb (x % 64) (y % 32) = pixelAt fb x y := by
  simp [pixelAt]

/-- Turning one pixel over changes that pixel and no other. -/
theorem pixelAt_flipPixel (fb : FrameBuffer) (x y x' y' : Nat) : pixelAt (flipPixel fb x y) x' y' =
    (pixelAt fb x' y' != decide (x % 64 = x' % 64 ∧ y % 32 = y' % 32)) := by
  have hx : x' % 64 < 64 := Nat.mod_lt _ (by decide)
  simp only [pixelAt, flipPixel, Vector.getElem_set]
  by_cases hy : y % 32 = y' % 32
  · simp only [hy, if_true, BitVec.getLsbD_xor, BitVec.getLsbD_twoPow, and_true]
    by_cases hxx : x % 64 = x' % 64 <;> simp [hxx, hx]
  · simp [hy]

/-- A sprite pixel with the place it is drawn at: column, row, bit. -/
abbrev SpriteCell := Nat × Nat × Bool

/-- Two sprite pixels land on different display pixels. -/
def Apart (c d : SpriteCell) : Prop := ¬ (c.1 % 64 = d.1 % 64 ∧ c.2.1 % 32 = d.2.1 % 32)

/-- The compositor as a run over a list of sprite pixels. -/
def plotCells : Canvas → List SpriteCell → Canvas
  | c, [] => c
  | c, d :: ds => plotCells (plot c d.1 d.2.1 d.2.2) ds

theorem plotCells_append (ds es : List SpriteCell) : ∀ c, plotCells c (ds ++ es) = plotCells (plotCells c ds) es := by
  induction ds with
  | nil => intro c; rfl
  | cons d ds ih => intro c; exact ih _

/-- The pixels of a sprite, row by row. -/
def spriteCells (x0 : Nat) : Nat → List Byte → List SpriteCell
  | _, [] => []
  | y, b :: bs => columns.map (fun j => (x0 + j, y, b.getLsbD (7 - j))) ++ spriteCells x0 (y + 1) bs

theorem plotRow_eq (x0 y : Nat) (b : Byte) : ∀ (js : List Nat) (c : Canvas),
    plotRow c x0 y b js = plotCells c (js.map (fun j => (x0 + j, y, b.getLsbD (7 - j)))) := by
  intro js
  induction js with
  | nil => intro c; rfl
  | cons j js ih => intro c; exact ih _

theorem plotRows_eq (x0 : Nat) : ∀ (bs : List Byte) (y : Nat) (c : Canvas),
    plotRows c x0 y bs = plotCells c (spriteCells x0 y bs) := by
  intro bs
  induction bs with
  | nil => intro y c; rfl
  | cons b bs ih => intro y c; rw [plotRows, spriteCells, plotCells_append, plotRow_eq, ih]

theorem mem_columns (j : Nat) : j ∈ columns ↔ j < 8 := by
  simp only [columns, List.mem_cons, List.not_mem_nil, or_false]; omega

/-- Which sprite pixels a sprite has. -/
theorem mem_spriteCells (x0 : Nat) : ∀ (bs : List Byte) (y : Nat) (d : SpriteCell), d ∈ spriteCells x0 y bs ↔
    ∃ r j, r < bs.length ∧ j < 8 ∧ d = (x0 + j, y + r, (bs.getD r 0).getLsbD (7 - j)) := by
  intro bs
  induction bs with
  | nil => intro y d; simp [spriteCells]
  | cons b bs ih =>
    intro y d
    simp only [spriteCells, List.mem_append, List.mem_map, mem_columns, ih, List.length_cons]
    constructor
    · rintro (⟨j, hj, rfl⟩ | ⟨r, j, hr, hj, rfl⟩)
      · exact ⟨0, j, by omega, hj, by simp⟩
      · exact ⟨r + 1, j, by omega, hj, by rw [List.getD_cons_succ, show y + 1 + r = y + (r + 1) by omega]⟩
    · rintro ⟨r, j, hr, hj, rfl⟩
      cases r with
      | zero => exact .inl ⟨j, hj, by simp⟩
      | succ r => exact .inr ⟨r, j, by omega, hj, by rw [List.getD_cons_succ, show y + 1 + r = y + (r + 1) by omega]⟩

/-- The pixels of one sprite never land on each other (R162, corner case e). -/
theorem pairwise_spriteCells (x0 : Nat) : ∀ (bs : List Byte) (y : Nat), bs.length ≤ 32 →
    (spriteCells x0 y bs).Pairwise Apart := by
  intro bs
  induction bs with
  | nil => intro y _; simp [spriteCells]
  | cons b bs ih =>
    intro y h
    simp only [List.length_cons] at h
    rw [spriteCells, List.pairwise_append]
    refine ⟨?_, ih _ (by omega), ?_⟩
    · rw [List.pairwise_map]
      have hc : columns.Pairwise (fun j k => j < k ∧ k < 8) := by decide
      refine hc.imp ?_
      intro j k hjk ha
      have := ha.1
      simp only at this
      omega
    · intro c hc d hd ha
      obtain ⟨j, hj, rfl⟩ := List.mem_map.1 hc
      obtain ⟨r, k, hr, hk, rfl⟩ := (mem_spriteCells x0 bs (y + 1) d).1 hd
      have := ha.2
      simp only at this
      omega

/-- A pixel after a list of sprite pixels was drawn. -/
theorem pixelAt_plotCells (x y : Nat) : ∀ (ds : List SpriteCell) (c : Canvas), ds.Pairwise Apart →
    pixelAt (plotCells c ds).fb x y = (pixelAt c.fb x y !=
      ds.any (fun d => d.2.2 && decide (d.1 % 64 = x % 64 ∧ d.2.1 % 32 = y % 32))) := by
  intro ds
  induction ds with
  | nil => intro c _; simp [plotCells]
  | cons d ds ih =>
    intro c hp
    rw [List.pairwise_cons] at hp
    rw [plotCells, ih _ hp.2, List.any_cons]
    cases hb : d.2.2 with
    | false => simp [plot]
    | true =>
      simp only [plot, if_true, pixelAt_flipPixel, Bool.true_and]
      by_cases hd : d.1 % 64 = x % 64 ∧ d.2.1 % 32 = y % 32
      · have hrest : ds.any (fun d => d.2.2 && decide (d.1 % 64 = x % 64 ∧ d.2.1 % 32 = y % 32)) = false := by
          rw [List.any_eq_false]
          intro e he
          have := hp.1 e he
          simp only [Apart, hd.1, hd.2] at this
          simp only [Bool.and_eq_true, decide_eq_true_eq, not_and]
          intro _ h1 h2
          exact this ⟨h1.symm, h2.symm⟩
        rw [hrest]
        simp [hd]
      · simp [hd]

/-- What the collision detector reports after a list of sprite pixels was drawn: the old pixels decide (R163). -/
theorem collision_plotCells : ∀ (ds : List SpriteCell) (c : Canvas), ds.Pairwise Apart →
    (plotCells c ds).collision = (c.collision || ds.any (fun d => d.2.2 && pixelAt c.fb d.1 d.2.1)) := by
  intro ds
  induction ds with
  | nil => intro c _; simp [plotCells]
  | cons d ds ih =>
    intro c hp
    rw [List.pairwise_cons] at hp
    rw [plotCells, ih _ hp.2, List.any_cons]
    cases hb : d.2.2 with
    | false => simp [plot]
    | true =>
      simp only [plot, if_true, Bool.true_and, Bool.or_assoc]
      congr 2
      rw [Bool.eq_iff_iff]
      simp only [List.any_eq_true, Bool.and_eq_true]
      refine exists_congr fun e => and_congr_right fun he => and_congr_right fun _ => ?_
      have := hp.1 e he
      simp only [Apart] at this
      simp [pixelAt_flipPixel, this]

end Sys2Proof.Machine
end

