-- ==== Sys2Proof/Laws/Events.lean ====
section
/-! SUPPORT. Sys2Proof/Laws/Events.lean: small facts about the events' effects. -/

namespace Sys2Proof.Machine

/-- A timer after a tick, as a number (R28). -/
theorem countDown_toNat : ∀ b : Byte, (countDown b).toNat = b.toNat - 1 := by decide

/-- Above the font every address resets to 0 (R31, R34). -/
theorem unlistedByte_of_le (a : Nat) (h : 80 ≤ a) : unlistedByte a = 0 := by
  rw [unlistedByte, List.getD_eq_getElem?_getD, List.getElem?_eq_none (by simpa [defaultFont] using h)]
  rfl

/-- An accepted tick, as the session after it. -/
theorem Session.after_tick (p : Session) (h : p.machine.fault = .none) : p.after .tick =
    ⟨{ p.machine with dt := countDown p.machine.dt, st := countDown p.machine.st }, p.booting⟩ := by
  simp [Session.after, Session.issue, tick, h, silently]

/-- A tick that is not enabled leaves the session as it was. -/
theorem Session.after_tick_faulted (p : Session) (h : p.machine.fault ≠ .none) : p.after .tick = p := by
  simp [Session.after, Session.issue, tick, h, silently]

/-- One key flag after `key_set`. -/
theorem keySet_getLsbD (k : Nat) (b : Bool) (s : State) (j : Nat) (hj : j < 16) :
    (keySet k b s).key.getLsbD j = if j = k then b else s.key.getLsbD j := by
  by_cases h : j = k
  · subst h
    cases b <;> simp [keySet, hj]
  · cases b <;> simp [keySet, h, hj]

end Sys2Proof.Machine
end

