-- ==== Sys2Proof/Laws/Exec.lean ====
section
/-! SUPPORT. Sys2Proof/Laws/Exec.lean: what an instruction and a step can answer, said once, for the claims about every
instruction. -/

namespace Sys2Proof.Machine

/-- The inversion of `exec`: it answers the fault entry of R203 when its check fails, and else a state with the same
FAULT. -/
theorem exec_cases (i : Instr) (s : State) : ∃ t, exec i s = .next t ∧
    ((executeFault i s = .none ∧ t.fault = s.fault) ∨
     (executeFault i s ≠ .none ∧ t = { s with fault := executeFault i s })) := by
  cases i
  case ret =>
    simp only [exec, execRet, executeFault]
    by_cases h : s.sp.val = 0
    · simp [State.pop_of_empty s h, h, raise]
    · simp [State.pop_of_pos s h, h]
  case call a =>
    simp only [exec, execCall, executeFault]
    by_cases h : s.sp.val = 16
    · simp [State.push_of_full _ _ h, h, raise]
    · simp [State.push_of_lt s _ (by omega), h]
  case ldVxK x =>
    simp only [exec, execLdVxK, executeFault]
    split <;> simp
  case draw x y n =>
    simp only [exec, execDraw, executeFault, inRange_iff, raise]
    have := n.isLt
    by_cases h : 1 ≤ n.toNat ∧ s.i.toNat + n.toNat - 1 > 0xFFF
    · rw [if_neg (by omega), if_pos h]; simp
    · rw [if_pos (by omega), if_neg h]; simp
  case ldB x =>
    simp only [exec, execLdB, executeFault, inRange_iff, raise]
    by_cases h : s.i.toNat + 2 > 0xFFF
    · rw [if_neg (by omega), if_pos h]; simp
    · rw [if_pos (by omega), if_neg h]; simp
  case storeRegs x =>
    simp only [exec, execStoreRegs, executeFault, inRange_iff, raise]
    by_cases h : s.i.toNat + x.val > 0xFFF
    · rw [if_neg (by omega), if_pos h]; simp
    · rw [if_pos (by omega), if_neg h]; simp
  case loadRegs x =>
    simp only [exec, execLoadRegs, executeFault, inRange_iff, raise]
    by_cases h : s.i.toNat + x.val > 0xFFF
    · rw [if_neg (by omega), if_pos h]; simp
    · rw [if_pos (by omega), if_neg h]; simp
  all_goals exact ⟨_, rfl, .inl ⟨rfl, rfl⟩⟩

/-- The inversion of `step`: no transition after a fault, the fetch's fault, an instruction, or an unmapped word. -/
theorem step_cases (s : State) :
    (s.fault ≠ .none ∧ step s = .fault (.stopped s.fault)) ∨
    (s.fault = .none ∧ 0xFFF < s.pc.toNat + 1 ∧ fetchWord s = none ∧ step s = raise .addressFault s) ∨
    (∃ w i, s.fault = .none ∧ fetchWord s = some w ∧ decode w = .ok i ∧ step s = exec i s) ∨
    (∃ w u, s.fault = .none ∧ fetchWord s = some w ∧ decode w = .error u ∧ step s = .next s.advance) := by
  by_cases hf : s.fault = .none
  · rw [step, if_pos hf]
    cases hw : fetchWord s with
    | none =>
      refine .inr (.inl ⟨hf, ?_, rfl, rfl⟩)
      rw [fetchWord_eq] at hw
      by_contra h
      rw [if_pos (by omega)] at hw
      cases hw
    | some w =>
      cases hd : decode w with
      | ok i => exact .inr (.inr (.inl ⟨w, i, hf, rfl, hd, by simp [runWord, hd]⟩))
      | error u => exact .inr (.inr (.inr ⟨w, u, hf, rfl, hd, by simp [runWord, hd, execUnmapped]⟩))
  · exact .inl ⟨hf, by rw [step, if_neg hf]⟩

end Sys2Proof.Machine
end

