-- ==== Sys2Proof/Laws/PerInstr.lean ====
section
/-! SUPPORT. Sys2Proof/Laws/PerInstr.lean: the per-instruction family EncodeMatchesRow: every encoded instruction has the
literal digits of its row of R86, whatever its operands. -/

namespace Sys2Proof.Laws.EncodeMatchesRow

/-- The encoding has the row's literal digits. -/
def Statement (i : Instr) : Prop := encode i &&& i.mask = i.matchWord

theorem append_and {n m : Nat} (a c : BitVec n) (b d : BitVec m) : (a ++ b) &&& (c ++ d) = (a &&& c) ++ (b &&& d) := by
  ext i hi
  simp only [BitVec.getElem_and, BitVec.getElem_append]
  split <;> simp

/-- Format A and its likes under a mask of the class. -/
theorem encA_class (op : BitVec 4) (nnn : BitVec 12) : encA op nnn &&& 0xF000#16 = encA op 0 := by
  refine (append_and op 0xF#4 nnn 0x000#12).trans ?_
  rw [show op &&& 0xF#4 = op from BitVec.and_allOnes, show nnn &&& 0x000#12 = 0 from BitVec.and_zero]
  rfl

theorem encXI_class (op : BitVec 4) (x : RegIdx) (nn : Byte) : encXI op x nn &&& 0xF000#16 = encA op 0 :=
  encA_class op _

theorem encXYN_class (op : BitVec 4) (x y : RegIdx) (n : BitVec 4) : encXYN op x y n &&& 0xF000#16 = encA op 0 :=
  encA_class op _

/-- Format XF under a mask of the class and the function code. -/
theorem encXI_function (op : BitVec 4) (x : RegIdx) (nn : Byte) :
    encXI op x nn &&& 0xF0FF#16 = encXI op 0 nn := by
  refine (append_and op 0xF#4 (BitVec.ofFin (w := 4) x ++ nn) (0x0#4 ++ 0xFF#8 : BitVec (4 + 8))).trans ?_
  rw [append_and, show op &&& 0xF#4 = op from BitVec.and_allOnes, show nn &&& 0xFF#8 = nn from BitVec.and_allOnes,
    show BitVec.ofFin (w := 4) x &&& 0x0#4 = 0 from BitVec.and_zero]
  rfl

/-- Format XYF under a mask of the class and the function code. -/
theorem encXYN_function (op : BitVec 4) (x y : RegIdx) (n : BitVec 4) :
    encXYN op x y n &&& 0xF00F#16 = encXYN op 0 0 n := by
  refine (append_and op 0xF#4 (BitVec.ofFin (w := 4) x ++ (BitVec.ofFin (w := 4) y ++ n))
    (0x0#4 ++ (0x0#4 ++ 0xF#4) : BitVec (4 + (4 + 4)))).trans ?_
  rw [append_and, append_and, show op &&& 0xF#4 = op from BitVec.and_allOnes,
    show n &&& 0xF#4 = n from BitVec.and_allOnes, show BitVec.ofFin (w := 4) x &&& 0x0#4 = 0 from BitVec.and_zero,
    show BitVec.ofFin (w := 4) y &&& 0x0#4 = 0 from BitVec.and_zero]
  rfl

theorem cls : Statement .cls := by unfold Statement; decide
theorem ret : Statement .ret := by unfold Statement; decide
theorem jp (nnn : BitVec 12) : Statement (.jp nnn) := encA_class 0x1#4 nnn
theorem call (nnn : BitVec 12) : Statement (.call nnn) := encA_class 0x2#4 nnn
theorem seImm (x : RegIdx) (nn : Byte) : Statement (.seImm x nn) := encXI_class 0x3#4 x nn
theorem sneImm (x : RegIdx) (nn : Byte) : Statement (.sneImm x nn) := encXI_class 0x4#4 x nn
theorem seReg (x y : RegIdx) : Statement (.seReg x y) := encXYN_function 0x5#4 x y 0x0#4
theorem ldImm (x : RegIdx) (nn : Byte) : Statement (.ldImm x nn) := encXI_class 0x6#4 x nn
theorem addImm (x : RegIdx) (nn : Byte) : Statement (.addImm x nn) := encXI_class 0x7#4 x nn
theorem ldReg (x y : RegIdx) : Statement (.ldReg x y) := encXYN_function 0x8#4 x y 0x0#4
theorem orReg (x y : RegIdx) : Statement (.orReg x y) := encXYN_function 0x8#4 x y 0x1#4
theorem andReg (x y : RegIdx) : Statement (.andReg x y) := encXYN_function 0x8#4 x y 0x2#4
theorem xorReg (x y : RegIdx) : Statement (.xorReg x y) := encXYN_function 0x8#4 x y 0x3#4
theorem addReg (x y : RegIdx) : Statement (.addReg x y) := encXYN_function 0x8#4 x y 0x4#4
theorem subReg (x y : RegIdx) : Statement (.subReg x y) := encXYN_function 0x8#4 x y 0x5#4
theorem shr (x y : RegIdx) : Statement (.shr x y) := encXYN_function 0x8#4 x y 0x6#4
theorem subnReg (x y : RegIdx) : Statement (.subnReg x y) := encXYN_function 0x8#4 x y 0x7#4
theorem shl (x y : RegIdx) : Statement (.shl x y) := encXYN_function 0x8#4 x y 0xE#4
theorem sneReg (x y : RegIdx) : Statement (.sneReg x y) := encXYN_function 0x9#4 x y 0x0#4
theorem ldI (nnn : BitVec 12) : Statement (.ldI nnn) := encA_class 0xA#4 nnn
theorem jpV0 (nnn : BitVec 12) : Statement (.jpV0 nnn) := encA_class 0xB#4 nnn
theorem rnd (x : RegIdx) (nn : Byte) : Statement (.rnd x nn) := encXI_class 0xC#4 x nn
theorem draw (x y : RegIdx) (n : BitVec 4) : Statement (.draw x y n) := encXYN_class 0xD#4 x y n
theorem skp (x : RegIdx) : Statement (.skp x) := encXI_function 0xE#4 x 0x9E#8
theorem sknp (x : RegIdx) : Statement (.sknp x) := encXI_function 0xE#4 x 0xA1#8
theorem ldVxDT (x : RegIdx) : Statement (.ldVxDT x) := encXI_function 0xF#4 x 0x07#8
theorem ldVxK (x : RegIdx) : Statement (.ldVxK x) := encXI_function 0xF#4 x 0x0A#8
theorem ldDTVx (x : RegIdx) : Statement (.ldDTVx x) := encXI_function 0xF#4 x 0x15#8
theorem ldSTVx (x : RegIdx) : Statement (.ldSTVx x) := encXI_function 0xF#4 x 0x18#8
theorem addI (x : RegIdx) : Statement (.addI x) := encXI_function 0xF#4 x 0x1E#8
theorem ldF (x : RegIdx) : Statement (.ldF x) := encXI_function 0xF#4 x 0x29#8
theorem ldB (x : RegIdx) : Statement (.ldB x) := encXI_function 0xF#4 x 0x33#8
theorem storeRegs (x : RegIdx) : Statement (.storeRegs x) := encXI_function 0xF#4 x 0x55#8
theorem loadRegs (x : RegIdx) : Statement (.loadRegs x) := encXI_function 0xF#4 x 0x65#8

end Sys2Proof.Laws.EncodeMatchesRow
end

