-- ==== Sys2Proof/Laws/Sprite.lean ====
section
/-! SUPPORT. Sys2Proof/Laws/Sprite.lean: the compositor's list of sprite pixels in the terms of Sys2Proof/Safety.lean. -/

namespace Sys2Proof.Machine

/-- Display pixel `p` is the target of a 1 bit in the compositor's list exactly when the sprite covers it. -/
theorem any_spriteCells_target (s : State) (x y : RegIdx) (n p : Nat) (hp : p < 2048) :
    ((spriteCells (s.getV x).toNat (s.getV y).toNat (s.spriteRows n)).any
      (fun d => d.2.2 && decide (d.1 % 64 = (p % 64) % 64 ∧ d.2.1 % 32 = (p / 64) % 32))) = true ↔
    SpriteCovers s x y n p := by
  simp only [List.any_eq_true, mem_spriteCells, State.length_spriteRows, SpriteCovers, Bool.and_eq_true,
    decide_eq_true_eq]
  constructor
  · rintro ⟨d, ⟨r, j, hr, hj, rfl⟩, hb, h1, h2⟩
    rw [State.getD_spriteRows _ _ _ hr] at hb
    refine ⟨r, j, hr, hj, ?_, hb⟩
    simp only [targetPixel] at *
    omega
  · rintro ⟨r, j, hr, hj, hp, hb⟩
    refine ⟨_, ⟨r, j, hr, hj, rfl⟩, ?_, ?_⟩
    · rw [State.getD_spriteRows _ _ _ hr]; exact hb
    · simp only [targetPixel] at hp ⊢
      omega

/-- A pixel of the display buffer as the compositor reads it. -/
theorem pixelAt_target (s : State) (x y : RegIdx) (r j : Nat) :
    pixelAt s.fb ((s.getV x).toNat + j) ((s.getV y).toNat + r) = s.pixel (targetPixel s x y r j) := by
  rw [State.pixel, ← pixelAt_mod, targetPixel]
  congr 1 <;> omega

end Sys2Proof.Machine
end

