-- ==== Sys2Proof/Tests/Slice0.lean ====
section
/-! SUPPORT. Sys2Proof/Tests/Slice0.lean: the checks of WellFormed refuse ill-formed data; words written out bit by bit from
R82 and R86; single steps with the results of spec/95_test_vectors.md (its id stands in each docstring); and, for every
obligation with hypotheses, a concrete state and operands that meet them. -/

namespace Sys2Proof.Machine.Tests

/-! ### Helpers -/

/-- The next state of a step, if there is one. -/
def stepped (s : State) : Option State :=
  match step s with
  | .next t => some t
  | .fault _ => none
  | .refused _ => none

/-- The next state of an instruction, if there is one. -/
def execed (i : Instr) (s : State) : Option State :=
  match exec i s with
  | .next t => some t
  | .fault _ => none
  | .refused _ => none

/-- The state after one step of word `w` placed at PC. -/
def run (w : Nat) (s : State) : Option State := stepped (s.withFetchWord 16 w)

/-- The boot state with some registers, given in order from V0. -/
def vs (us : List Byte) : State := State.reset.setRegs us

/-- The boot state with one byte of memory and I at it. -/
def at_ (a : Word) (us : List Byte) : State := (State.reset.setI a).setMem (writeBytes [] a.toNat us)

/-- A state with one pixel turned on. -/
def lit (s : State) (p : Nat) : State := s.setFB (flipPixel s.fb (p % 64) (p / 64))

/-- A state with PC elsewhere. -/
def atPc (s : State) (a : Word) : State := s.jumpTo a

/-- A state with SP and one stack entry. -/
def stacked (s : State) (n : Fin 17) (k : Fin 16) (a : Word) : State := { s with sp := n, stack := s.stack.set k.val a }

/-- A state with some keys down. -/
def keys (s : State) (k : BitVec 16) : State := { s with key := k }

/-! ### WellFormed -/

theorem smoke_image_too_long : WellFormed.image (List.replicate 3584 0) = false := by
  rw [WellFormed.image, List.length_replicate]; decide
theorem smoke_image_longest : WellFormed.image (List.replicate 3583 0) = true := by
  rw [WellFormed.image, List.length_replicate]; decide
theorem smoke_font_short : WellFormed.font (List.replicate 79 0) = false := by decide
theorem smoke_font_long : WellFormed.font (List.replicate 81 0) = false := by decide
theorem smoke_font_default : WellFormed.font defaultFont = true := by decide
theorem smoke_key_sixteen : WellFormed.keyIndex 16 = false := by decide
theorem smoke_key_fifteen : WellFormed.keyIndex 15 = true := by decide

/-- The events refuse what the checks refuse, by name. -/
theorem smoke_events_refuse :
    (Session.mk State.reset true).issue (.reset []) = .refused .notAFont ∧
    (Session.mk State.reset true).issue (.keySet 16 true) = .refused .noSuchKey ∧
    (Session.mk State.reset true).issue (.loadProgram (List.replicate 3584 0)) = .refused .loadError ∧
    (Session.mk State.reset false).issue (.loadProgram []) = .refused .loadOutsideBoot := by
  refine ⟨rfl, rfl, ?_, rfl⟩
  have h := smoke_image_too_long
  generalize List.replicate 3584 (0 : Byte) = bytes at h ⊢
  simp [Session.issue, loadProgram, h, silently]

/-! ### Decoding: words written out bit by bit (R82, R86) -/

theorem test_decode_control :
    decodeTableWord 16 0b0000000011101110 = some .ret ∧
    decodeTableWord 16 0b0001101010111100 = some (.jp 0xABC) ∧
    decodeTableWord 16 0b0010001000001010 = some (.call 0x20A) ∧
    decodeTableWord 16 0b1011001011110000 = some (.jpV0 0x2F0) ∧
    decodeTableWord 16 0b0011000111111110 = some (.seImm 1 0xFE) ∧
    decodeTableWord 16 0b0100001000000101 = some (.sneImm 2 0x05) ∧
    decodeTableWord 16 0b0101001101000000 = some (.seReg 3 4) ∧
    decodeTableWord 16 0b1001001101000000 = some (.sneReg 3 4) := by decide

theorem test_decode_alu :
    decodeTableWord 16 0b0110101000101100 = some (.ldImm 0xA 0x2C) ∧
    decodeTableWord 16 0b0111000111111111 = some (.addImm 1 0xFF) ∧
    decodeTableWord 16 0b1000101011110000 = some (.ldReg 0xA 0xF) ∧
    decodeTableWord 16 0b1000000100100001 = some (.orReg 1 2) ∧
    decodeTableWord 16 0b1000000100100010 = some (.andReg 1 2) ∧
    decodeTableWord 16 0b1000000100100011 = some (.xorReg 1 2) ∧
    decodeTableWord 16 0b1000000100100100 = some (.addReg 1 2) ∧
    decodeTableWord 16 0b1000000100100101 = some (.subReg 1 2) ∧
    decodeTableWord 16 0b1000000100100110 = some (.shr 1 2) ∧
    decodeTableWord 16 0b1000000100100111 = some (.subnReg 1 2) ∧
    decodeTableWord 16 0b1000000100101110 = some (.shl 1 2) ∧
    decodeTableWord 16 0b1100001000001111 = some (.rnd 2 0x0F) := by decide

theorem test_decode_index_memory :
    decodeTableWord 16 0b1010001100000000 = some (.ldI 0x300) ∧
    decodeTableWord 16 0b1111001000011110 = some (.addI 2) ∧
    decodeTableWord 16 0b1111010000101001 = some (.ldF 4) ∧
    decodeTableWord 16 0b1111000000110011 = some (.ldB 0) ∧
    decodeTableWord 16 0b1111000101010101 = some (.storeRegs 1) ∧
    decodeTableWord 16 0b1111001001100101 = some (.loadRegs 2) := by decide

theorem test_decode_display :
    decodeTableWord 16 0b0000000011100000 = some .cls ∧
    decodeTableWord 16 0b1101000000010101 = some (.draw 0 1 5) := by decide

theorem test_decode_timers_keys :
    decodeTableWord 16 0b1110001010011110 = some (.skp 2) ∧
    decodeTableWord 16 0b1110001010100001 = some (.sknp 2) ∧
    decodeTableWord 16 0b1111001100000111 = some (.ldVxDT 3) ∧
    decodeTableWord 16 0b1111001000001010 = some (.ldVxK 2) ∧
    decodeTableWord 16 0b1111000000010101 = some (.ldDTVx 0) ∧
    decodeTableWord 16 0b1111010100011000 = some (.ldSTVx 5) := by decide

/-- T-U1 to T-U17: the words of part 2.6 decode to nothing. -/
theorem test_decode_unmapped :
    ([0x0000, 0x0123, 0x00E1, 0x01E0, 0x0FEE, 0x5121, 0x5111, 0x9121, 0x8128, 0x812F, 0x8129, 0x812A, 0x812B, 0x812C,
      0x812D, 0xE19F, 0xE100] ++ [0xF100, 0xF156, 0xF175, 0xF185, 0xF130, 0xF101, 0xF102, 0xFFFF]).all
      (fun w => (decodeTableWord 16 w).isNone) = true := by decide

/-- Part 2.6: the mapped boundary words decode to something. -/
theorem test_decode_mapped_boundary :
    ([0x00E0, 0x00EE, 0x5120, 0x9120, 0x8120, 0x8121, 0x8122, 0x8123, 0x8124, 0x8125, 0x8126, 0x8127, 0x812E] ++
     [0xE19E, 0xE1A1, 0xF107, 0xF10A, 0xF115, 0xF118, 0xF11E, 0xF129, 0xF133, 0xF155, 0xF165]).all
      (fun w => (decodeTableWord 16 w).isSome) = true := by decide

/-- The example words of R90's listings, encoded. -/
theorem test_encode :
    encode (.call 0x20A) = 0x220A ∧ encode (.seReg 3 4) = 0x5340 ∧ encode (.shl 3 0xA) = 0x83AE ∧
    encode (.draw 0 1 2) = 0xD012 ∧ encode (.ldVxK 2) = 0xF20A := by decide

/-! ### Control transfer -/

/-- T-CF3. -/
theorem test_ret_odd : (run 0x00EE (stacked State.reset 1 0 0x301)).map (fun t => (t.sp.val, t.pc, t.stackEntry 0)) =
    some (0, 0x301, 0x301) := by decide
/-- T-CF2. -/
theorem test_ret_empty : (run 0x00EE State.reset).map (fun t => (t.fault, t.sp.val, t.pc)) =
    some (.stackUnderflow, 0, 0x200) := by decide
/-- T-CF4. -/
theorem test_jp : (run 0x1ABC State.reset).map (·.pc) = some 0xABC := by decide
/-- T-CF9. -/
theorem test_call_sixteenth : (run 0x2300 (stacked State.reset 15 0 0)).map (fun t => (t.sp.val, t.pc, t.stackEntry 15)) =
    some (16, 0x300, 0x202) := by decide
/-- T-CF10. -/
theorem test_call_seventeenth : (run 0x2300 (stacked State.reset 16 15 0x222)).map
    (fun t => (t.fault, t.sp.val, t.pc, t.stackEntry 15)) = some (.stackOverflow, 16, 0x200, 0x222) := by decide
/-- T-CF12: the digit 2 is part of NNN. -/
theorem test_jpV0_uses_v0 : (run 0xB2F0 (vs [0x10, 0, 0x55])).map (·.pc) = some 0x300 := by decide
/-- T-CF13: no 12-bit wrap. -/
theorem test_jpV0_past_memory : (run 0xBFFF (vs [0xFF])).map (·.pc) = some 0x10FE := by decide
/-- T-CF16, T-CF15. -/
theorem test_seImm : (run 0x3F01 (State.reset.setV VF 1)).map (·.pc) = some 0x204 ∧
    (run 0x3100 (vs [0, 1])).map (·.pc) = some 0x202 := by decide
/-- T-CF17, T-CF18. -/
theorem test_sneImm : (run 0x4205 (vs [0, 0, 5])).map (·.pc) = some 0x202 ∧
    (run 0x4205 (vs [0, 0, 6])).map (·.pc) = some 0x204 := by decide
/-- T-CF20, T-CF21. -/
theorem test_seReg : (run 0x5340 (vs [0, 0, 0, 0x7F, 0x7E])).map (·.pc) = some 0x202 ∧
    (run 0x5770 (State.reset.setV 7 0x99)).map (·.pc) = some 0x204 := by decide
/-- T-CF22, T-CF23. -/
theorem test_sneReg : (run 0x9340 (vs [0, 0, 0, 1, 2])).map (·.pc) = some 0x204 ∧
    (run 0x9770 (State.reset.setV 7 0x99)).map (·.pc) = some 0x202 := by decide
/-- T-CF24: the skipped word is not fetched. -/
theorem test_skip_off_the_end : (run 0x3000 (atPc State.reset 0xFFC)).map (fun t => (t.pc, t.fault)) =
    some (0x1000, .none) := by decide

/-! ### Register load, arithmetic and logic -/

/-- T-AL1. -/
theorem test_ldImm_vf : (run 0x6FAA State.reset).map (·.getV VF) = some 0xAA := by decide
/-- T-AL2: no carry flag. -/
theorem test_addImm_no_flag : (run 0x7101 ((vs [0, 0xFF]).setV VF 7)).map (fun t => (t.getV 1, t.getV VF)) =
    some (0x00, 0x07) := by decide
/-- T-AL6. -/
theorem test_ldReg : (run 0x8AF0 (State.reset.setV VF 1)).map (fun t => (t.getV 0xA, t.getV VF)) = some (1, 1) := by decide
/-- T-AL7: logic does not clear VF. -/
theorem test_or : (run 0x8011 ((vs [0x0F, 0xF0]).setV VF 1)).map (fun t => (t.getV 0, t.getV VF)) = some (0xFF, 1) := by
  decide
/-- T-AL8. -/
theorem test_and : (run 0x8012 ((vs [0x3C, 0x0F]).setV VF 1)).map (fun t => (t.getV 0, t.getV VF)) = some (0x0C, 1) := by
  decide
/-- T-AL9. -/
theorem test_xor : (run 0x8013 ((vs [0xFF, 0x0F]).setV VF 1)).map (fun t => (t.getV 0, t.getV VF)) = some (0xF0, 1) := by
  decide
/-- S2, T-AL11. -/
theorem test_add_carry : (run 0x8014 (vs [0xFF, 0x01])).map (fun t => (t.getV 0, t.getV VF)) = some (0, 1) ∧
    (run 0x8014 ((vs [0x80, 0x7F]).setV VF 1)).map (fun t => (t.getV 0, t.getV VF)) = some (0xFF, 0) := by decide
/-- T-AL13, T-AL15: the flag stands when X is 0xF; the old VF is the operand when Y is 0xF. -/
theorem test_add_vf : (run 0x8F14 ((vs [0, 0xFF]).setV VF 1)).map (·.getV VF) = some 1 ∧
    (run 0x80F4 ((vs [0x10]).setV VF 1)).map (fun t => (t.getV 0, t.getV VF)) = some (0x11, 0) := by decide
/-- S3. -/
theorem test_sub_borrow : (run 0x8015 ((vs [0x01, 0x02]).setV VF 1)).map (fun t => (t.getV 0, t.getV VF)) =
    some (0xFF, 0) := by decide
/-- T-AL19: equal operands give 0. -/
theorem test_sub_equal : (run 0x8015 ((vs [5, 5]).setV VF 1)).map (fun t => (t.getV 0, t.getV VF)) = some (0, 0) := by
  decide
/-- S4: Y is ignored. -/
theorem test_shr : (run 0x8126 (vs [0, 0x81, 0xFF])).map (fun t => (t.getV 1, t.getV VF, t.getV 2)) =
    some (0x40, 1, 0xFF) := by decide
/-- T-AL26. -/
theorem test_shr_vf : (run 0x8F06 (State.reset.setV VF 2)).map (·.getV VF) = some 0 := by decide
/-- T-AL28, T-AL27. -/
theorem test_subn : (run 0x8017 ((vs [0x0A, 0x03]).setV VF 1)).map (fun t => (t.getV 0, t.getV VF)) = some (0xF9, 0) ∧
    (run 0x8017 (vs [0x03, 0x0A])).map (fun t => (t.getV 0, t.getV VF)) = some (7, 1) := by decide
/-- T-AL31. -/
theorem test_subn_vf_operand : (run 0x80F7 ((vs [3]).setV VF 1)).map (fun t => (t.getV 0, t.getV VF)) =
    some (0xFE, 0) := by decide
/-- T-AL34: Y is ignored. -/
theorem test_shl : (run 0x83AE ((vs [0, 0, 0, 0x7F]).setV VF 1)).map (fun t => (t.getV 3, t.getV VF)) =
    some (0xFE, 0) := by decide
/-- T-AL36. -/
theorem test_shl_vf : (run 0x8F0E (State.reset.setV VF 0x80)).map (·.getV VF) = some 1 := by decide
/-- T-AL37, with the draw as an argument. -/
theorem test_rnd_masked : (match execRndWith 0xB7 2 0x0F State.reset with
    | .next t => some (t.getV 2, t.pc)
    | .fault _ => none
    | .refused _ => none) = some (0x07, 0x202) := by decide
/-- CXNN runs whatever the draw is, and each execution takes a draw of its own (D12). -/
theorem test_rnd_runs : (run 0xC20F State.reset).map (fun t => (t.pc, t.draws)) = some (0x202, 1) := by decide

/-! ### Index register and memory -/

/-- T-IM1. -/
theorem test_ldI : (run 0xAFFF (State.reset.setI 0x1234)).map (·.i) = some 0xFFF := by decide
/-- T-IM3, T-IM4: no 12-bit wrap, a 16-bit wrap, no flag. -/
theorem test_addI : (run 0xF21E ((vs [0, 0, 1]).setI 0xFFF)).map (fun t => (t.i, t.getV VF)) = some (0x1000, 0) ∧
    (run 0xF21E ((vs [0, 0, 1]).setI 0xFFFF)).map (·.i) = some 0 := by decide
/-- T-IM6, T-IM7: the whole byte is multiplied. -/
theorem test_ldF : (run 0xF429 (State.reset.setV 4 0x10)).map (·.i) = some 0x50 ∧
    (run 0xF429 (State.reset.setV 4 0xFF)).map (·.i) = some 0x4FB := by decide
/-- S10. -/
theorem test_ldB : (run 0xF033 ((vs [0x9D]).setI 0x300)).map (fun t => (readBytes t.mem 0x300 4, t.i)) =
    some ([1, 5, 7, 0], 0x300) := by decide
/-- T-IM13. -/
theorem test_ldB_faults : (run 0xF033 ((vs [0x7B]).setI 0xFFE)).map (fun t => (t.fault, readBytes t.mem 0xFFE 2, t.pc)) =
    some (.addressFault, [0, 0], 0x200) := by decide
/-- T-IM19. -/
theorem test_storeRegs : (run 0xF155 ((vs [0x12, 0x08, 0xEE]).setI 0x208)).map (fun t => (readBytes t.mem 0x208 3, t.i)) =
    some ([0x12, 0x08, 0], 0x20A) := by decide
/-- T-IM18. -/
theorem test_storeRegs_faults : (run 0xFF55 ((vs [1]).setI 0xFF1)).map (fun t => (t.fault, t.i, readByte t.mem 0xFF1)) =
    some (.addressFault, 0xFF1, 0) := by decide
/-- T-IM20. -/
theorem test_loadRegs : (run 0xF265 ((at_ 0x300 [1, 5, 7, 9]).setV 3 0x99)).map (fun t => (t.v.toList.take 4, t.i)) =
    some ([1, 5, 7, 0x99], 0x303) := by decide
/-- T-IM22, T-IM23. -/
theorem test_loadRegs_edges : (run 0xF065 ((vs [0x44]).setI 0x1000)).map (fun t => (t.fault, t.getV 0, t.i)) =
      some (.addressFault, 0x44, 0x1000) ∧
    (run 0xF465 State.reset).map (fun t => (t.v.toList.take 6, t.i)) =
      some ([0xF0, 0x90, 0x90, 0x90, 0xF0, 0], 5) := by decide
/-- T-IM14: the font area is not protected. -/
theorem test_ldB_over_font : (run 0xF033 (vs [0x7B])).map (fun t => readBytes t.mem 0 4) = some [1, 2, 3, 0x90] := by decide

/-! ### Display -/

/-- T-D1. -/
theorem test_cls : (run 0x00E0 ((lit (lit (lit State.reset 0) 100) 2047).setV VF 1)).map
    (fun t => (t.pixel 0, t.pixel 100, t.pixel 2047, t.getV VF)) = some (false, false, false, 1) := by decide
/-- T-D6: the wrap in both directions, in rows 31 and 0. -/
theorem test_draw_wraps : (run 0xD012 ((at_ 0x300 [0xFF, 0xFF]).setRegs [62, 31])).map
    (fun t => ([2045, 2046, 2047, 1984, 1989, 1990, 61, 62, 63, 0, 5, 6].map t.pixel, t.getV VF)) =
    some ([false, true, true, true, true, false, false, true, true, true, true, false], 0) := by decide
/-- T-D7, T-D12: one collision suffices; the coordinate is the old VF. -/
theorem test_draw_collides : (run 0xD011 (lit (at_ 0x300 [0xC0]) 0)).map (fun t => (t.pixel 0, t.pixel 1, t.getV VF)) =
      some (false, true, 1) ∧
    (run 0xDF01 ((at_ 0x300 [0x80]).setV VF 5)).map (fun t => (t.pixel 0, t.pixel 5, t.getV VF)) =
      some (false, true, 0) := by decide
/-- T-D9: N = 0. -/
theorem test_draw_no_rows : (run 0xD010 ((lit (State.reset.setI 0xFFFF) 7).setV VF 1)).map
    (fun t => (t.pixel 7, t.getV VF, t.fault, t.pc)) = some (true, 0, .none, 0x202) := by decide
/-- T-D11. -/
theorem test_draw_faults : (run 0xD012 ((State.reset.setI 0xFFF).setV VF 1)).map
    (fun t => (t.fault, t.pixel 0, t.getV VF, t.pc)) = some (.addressFault, false, 1, 0x200) := by decide

/-! ### Timers and keys -/

/-- T-TK1. -/
theorem test_ldVxDT : (run 0xF307 (State.reset.setDT 0x2A)).map (fun t => (t.getV 3, t.dt)) = some (0x2A, 0x2A) := by decide
/-- T-TK3. -/
theorem test_ldDTVx : (run 0xF015 (vs [0x3C])).map (fun t => (t.dt, t.st)) = some (0x3C, 0) := by decide
/-- T-TK5. -/
theorem test_ldSTVx : (run 0xF518 (State.reset.setV 5 1)).map (fun t => (t.st, t.dt)) = some (1, 0) := by decide
/-- T-TK15, T-TK17: an index above 0xF names no key and is not masked. -/
theorem test_skp : (run 0xE29E (keys (vs [0, 0, 5]) 0x20)).map (·.pc) = some 0x204 ∧
    (run 0xE29E (keys (vs [0, 0, 0x15]) 0x20)).map (·.pc) = some 0x202 := by decide
/-- T-TK19, T-TK20. -/
theorem test_sknp : (run 0xE2A1 (keys (vs [0, 0, 5]) 0x20)).map (·.pc) = some 0x202 ∧
    (run 0xE2A1 (keys (vs [0, 0, 0xFF]) 0xFFFF)).map (·.pc) = some 0x204 := by decide
/-- T-TK21: nothing changes at all. -/
theorem test_ldVxK_waits : run 0xF20A (State.reset.setDT 9) = some ((State.reset.setDT 9).withFetchWord 16 0xF20A) := by
  decide
/-- T-TK23, T-TK25: the lowest key, by index. -/
theorem test_ldVxK_lowest : (run 0xF20A (keys State.reset 0x208)).map (fun t => (t.getV 2, t.pc)) = some (3, 0x202) ∧
    (run 0xFF0A (keys State.reset 0x8000)).map (fun t => (t.getV VF, t.pc)) = some (0xF, 0x202) := by decide

/-! ### The step and the events -/

/-- T-U5: an unmapped word is a no-operation. -/
theorem test_unmapped_step : (run 0x0FEE (stacked State.reset 1 0 0xABC)).map (fun t => (t.pc, t.sp.val, t.fault)) =
    some (0x202, 1, .none) := by decide
/-- T-F1, T-F2: the highest address a fetch can use is 0xFFE. -/
theorem test_fetch_edge : (stepped (atPc State.reset 0xFFF)).map (fun t => (t.fault, t.pc)) = some (.addressFault, 0xFFF) ∧
    (run 0x1200 (atPc State.reset 0xFFE)).map (fun t => (t.fault, t.pc)) = some (.none, 0x200) := by decide
/-- T-F11: an odd PC is fetched from. -/
theorem test_fetch_odd : (run 0x6A2C (atPc State.reset 0x201)).map (fun t => (t.getV 0xA, t.pc)) = some (0x2C, 0x203) := by
  decide
/-- T-F4, T-F5: no step and no tick after a fault. -/
theorem test_no_step_after_fault : stepped { State.reset with fault := .stackOverflow } = none ∧
    (Session.mk { State.reset with fault := .stackOverflow, dt := 7, st := 1 } false).after .tick =
      Session.mk { State.reset with fault := .stackOverflow, dt := 7, st := 1 } false ∧
    (Session.mk { State.reset with fault := .stackOverflow, dt := 7, st := 1 } false).toneOf .tick = false := by decide
/-- T-F6: reset after a fault gives the boot state exactly. -/
theorem test_reset_after_fault : (Session.mk { State.reset with fault := .stackUnderflow, key := 3, pc := 0x400 } false).after
    (.reset defaultFont) = Session.mk State.reset true := by decide
/-- T-F10: a one-byte image. -/
theorem test_load_one_byte : ((Session.mk State.reset true).after (.loadProgram [0x12])).machine.mem = [(0x200, 0x12)] := by
  decide
/-- T-TK14, T-TK9, T-TK11: the timers count on their own and the tone is the expiry. -/
theorem test_tick : (Session.mk ((State.reset.setDT 5).setST 1) false).after .tick = Session.mk (State.reset.setDT 4) false ∧
    (Session.mk ((State.reset.setDT 5).setST 1) false).toneOf .tick = true ∧
    (Session.mk (State.reset.setST 2) false).toneOf .tick = false ∧
    (Session.mk State.reset false).toneOf .tick = false := by decide
/-- T-TK27. -/
theorem test_key_set : (keySet 7 true State.reset).key = 0x80 ∧ (keySet 7 true (keySet 7 true State.reset)).key = 0x80 ∧
    (keySet 7 false (keySet 7 true State.reset)).key = 0 := by decide
/-- One frame of the driver's schedule: two steps, then one tick (R238). -/
theorem test_frame : Session.run (frameEvents 2) (Session.mk (State.reset.setDT 3) true) =
    Session.mk ((State.reset.setDT 2).jumpTo 0x204) false := by decide
/-- The render port gives the pixels in order (R214) and FAULT reads as its code (R200). -/
theorem test_ports : (renderPort (lit State.reset 70))[70]? = some true ∧ (renderPort State.reset).length = 2048 ∧
    faultCode { State.reset with fault := .stackUnderflow } = 3 := by
  refine ⟨?_, by simp [renderPort], by decide⟩
  rw [renderPort, List.getElem?_map, List.getElem?_range (by decide)]
  decide

/-! ### Witnesses: what meets the hypotheses of the obligations, clause by clause at the boundaries -/

theorem witness_word_masked : (0xFFFF : Word) &&& (Instr.jp 0).mask ≠ (Instr.jp 0).matchWord ∧
    (0x1FFF : Word) &&& (Instr.jp 0).mask = (Instr.jp 0).matchWord ∧ decode 0x1FFF = .ok (.jp 0xFFF) ∧
    decode 0xFFFF = .error .classF := by decide

theorem witness_unmapped_classes : decode 0x00E1 = .error .class0 ∧ decode 0x500F = .error .class5 ∧
    decode 0x8008 = .error .class8 ∧ decode 0x9001 = .error .class9 ∧ decode 0xE09F = .error .classE ∧
    decode 0xF066 = .error .classF := by decide

/-- Fetch hypotheses at both edges, with a mapped and an unmapped word. -/
theorem witness_fetch :
    (atPc State.reset 0xFFE).fault = .none ∧ (atPc State.reset 0xFFE).pc.toNat + 1 ≤ 0xFFF ∧
    fetchWord (atPc State.reset 0xFFE) = some 0x0000 ∧ decode 0x0000 = .error .class0 ∧
    fetchWord ((atPc State.reset 0xFFE).withFetchWord 16 0x12FE) = some 0x12FE ∧ decode 0x12FE = .ok (.jp 0x2FE) ∧
    (atPc State.reset 0xFFF).pc.toNat + 1 > 0xFFF := by decide

/-- PlacedWordIsTheNextExecuted, KeySetWritesOneFlag, ResetLeavesTheTable and InvariantHoldsAtReset: the largest word and
key index, and a FONT. -/
theorem witness_inputs : 0xFFFF < 65536 ∧ 15 < 16 ∧ defaultFont.length = 80 := by decide

/-- StoredWordIsFetchedAtOnce, at the highest address. -/
theorem witness_stored_word : 1 ≤ (1 : RegIdx).val ∧ (State.reset.setI 0xFFE).i.toNat + (1 : RegIdx).val ≤ 0xFFF := by decide

/-- SelfJumpRests: the resting state of T-CF5. -/
theorem witness_at_rest : AtRest (State.reset.withFetchWord 16 0x1200) :=
  ⟨rfl, 0x1200, by decide, by decide, by decide⟩

/-- CanonicalMemoryIsDeterminedByItsBytes: two stores in either order. -/
theorem witness_canonical : Memory.wf (writeByte (writeByte [] 0x300 1) 0xFFF 2) = true ∧
    Memory.wf (writeByte (writeByte [] 0xFFF 2) 0x300 1) = true ∧
    ∀ a, readByte (writeByte (writeByte [] 0x300 1) 0xFFF 2) a = readByte (writeByte (writeByte [] 0xFFF 2) 0x300 1) a := by
  refine ⟨by decide, by decide, fun a => ?_⟩
  simp only [readByte_writeByte]
  split <;> split <;> first | rfl | omega

/-- FaultEntryIsPrecise, in its two clauses: RET with an empty stack, a fetch past the end. -/
theorem witness_fault_entry :
    (execed .ret State.reset).map (·.fault) = some .stackUnderflow ∧ State.reset.fault = .none ∧
    (stepped (atPc State.reset 0xFFF)).map (·.fault) = some .addressFault := by decide

/-- StepRaisesTheFaultOfTheTable: each row of the table, and none. -/
theorem witness_step_fault : stepFault (atPc State.reset 0xFFF) = .addressFault ∧
    stepFault (State.reset.withFetchWord 16 0x00EE) = .stackUnderflow ∧
    stepFault ((stacked State.reset 16 0 0).withFetchWord 16 0x2300) = .stackOverflow ∧
    stepFault ((State.reset.setI 0xFFF).withFetchWord 16 0xD012) = .addressFault ∧
    stepFault ((State.reset.setI 0xFFF).withFetchWord 16 0xD011) = .none := by decide

/-- OnlyResetLeavesAFault: a faulted session, an event that is not `reset`, a FONT. -/
theorem witness_faulted : (Session.mk { State.reset with fault := .addressFault } false).machine.fault ≠ .none ∧
    (∀ font, Event.keySet 3 true ≠ .reset font) ∧ defaultFont.length = 80 :=
  ⟨by decide, by simp, by decide⟩

/-- LoadProgramCopiesTheImage: the longest accepted image, the shortest refused one, and no boot state. -/
theorem witness_load : (Session.mk State.reset true).booting = true ∧ (List.replicate 3583 (0x12 : Byte)).length ≤ 3583 ∧
    (List.replicate 3584 (0x12 : Byte)).length > 3583 ∧ (Session.mk State.reset false).booting = false := by
  refine ⟨rfl, ?_, ?_, rfl⟩
  · rw [List.length_replicate]
  · rw [List.length_replicate]; decide

/-- OnlyKeySetAndResetWriteKeyFlags: an instruction that answers a next state, an event of the named kind. -/
theorem witness_key_writers : (execed .cls (keys State.reset 5)).map (·.key) = some 5 ∧
    (∀ k b, Event.tick ≠ .keySet k b) ∧ (∀ font, Event.tick ≠ .reset font) :=
  ⟨by decide, by simp, by simp⟩

/-- ToneOnlyInTheExpiringTick, TickCountsBothTimersDown, ToneOncePerExpiry: both sides of each condition. -/
theorem witness_tone : (Session.mk (State.reset.setST 1) false).machine.fault = .none ∧
    (Session.mk (State.reset.setST 1) false).toneOf .tick = true ∧
    Session.pulses (List.replicate 3 .tick) (Session.mk (State.reset.setST 3) false) = 1 ∧
    Session.pulses (List.replicate 2 .tick) (Session.mk (State.reset.setST 3) false) = 0 ∧
    Session.pulses (List.replicate 2 .tick) (Session.mk State.reset false) = 0 := by decide

/-- EveryStepKeepsTheInvariant, EveryRunKeepsTheInvariant: the highest PC of the invariant, and a step that runs. -/
theorem witness_invariant : Inv (atPc State.reset 0x10FE) ∧ (stepped (atPc State.reset 0x10FE)).isSome = true ∧
    Inv (stacked (atPc State.reset 0xFFE) 16 15 0x1000) ∧
    (stepped (stacked (atPc State.reset 0xFFE) 16 15 0x1000)).isSome = true := by
  refine ⟨⟨by decide, by decide, by decide⟩, by decide, ⟨by decide, by decide, by decide⟩, by decide⟩

/-- AccessMatrixOfWrites: each clause's premise is met by an instruction that answers a next state. -/
theorem witness_writers :
    (execed (.ldImm 3 7) State.reset).map (·.getV 3) = some 7 ∧ (execed (.ldI 0x300) State.reset).map (·.i) = some 0x300 ∧
    (execed (.call 0x300) State.reset).map (fun t => (t.sp.val, t.stackEntry 0)) = some (1, 0x202) ∧
    (execed (.ldDTVx 0) (vs [9])).map (·.dt) = some 9 ∧ (execed (.ldSTVx 0) (vs [9])).map (·.st) = some 9 ∧
    (execed .cls (lit State.reset 7)).map (·.pixel 7) = some false ∧
    (execed (.ldB 0) ((vs [255]).setI 0x300)).map (fun t => readByte t.mem 0x300) = some 2 ∧
    (execed (.rnd 0 0) State.reset).map (·.draws) = some 1 := by decide

/-- UnreadRegistersDoNotMatter: the shift does not read V[Y], and it answers a next state; the addition writes VF without
reading it and moves PC; FX0A with every key up writes nothing and does not; a load does not write a register above X. -/
theorem witness_unread : readsReg (.shr 1 2) 2 = false ∧ writesReg (.shr 1 2) 2 = false ∧
    (execed (.shr 1 2) (vs [0, 3, 5])).isSome = true ∧
    readsReg (.addReg 0 1) VF = false ∧ writesReg (.addReg 0 1) VF = true ∧
    (execed (.addReg 0 1) State.reset).map (·.pc) = some 0x202 ∧
    readsReg (.ldVxK 2) 2 = false ∧ writesReg (.ldVxK 2) 2 = true ∧
    (execed (.ldVxK 2) State.reset).map (·.pc) = some 0x200 ∧
    writesReg (.loadRegs 2) 2 = true ∧ writesReg (.loadRegs 2) 3 = false := by decide

/-- NoInstructionReadsTheSoundTimer: FX18, and an instruction that is not FX18. -/
theorem witness_sound_timer : (execed (.ldSTVx 0) (vs [9])).map (·.st) = some 9 ∧
    (execed (.ldDTVx 0) ((vs [9]).setST 4)).map (·.st) = some 4 ∧ ∀ x, Instr.ldDTVx 0 ≠ .ldSTVx x := by decide

/-- FlagIsZeroOrOne: a flag writer, a draw at the edge of its range, and a change of VF by the X field. -/
theorem witness_flag : (execed (.addReg 0 1) (vs [0xFF, 1])).map (·.getV VF) = some 1 ∧
    (State.reset.setI 0xFFF).i.toNat + (1 : BitVec 4).toNat - 1 ≤ 0xFFF ∧
    (execed (.draw 0 1 1) (State.reset.setI 0xFFF)).map (·.getV VF) = some 0 ∧
    (execed (.loadRegs VF) (at_ 0x300 (List.replicate 16 9))).map (·.getV VF) = some 9 := by decide

/-- ReturnPopsTheStack and CallPushesTheReturnAddress: SP at 1, 16, 0 and at 15, 16. -/
theorem witness_stack : (stacked State.reset 1 0 0x206).sp.val ≠ 0 ∧ (stacked State.reset 16 15 0x206).sp.val ≠ 0 ∧
    State.reset.sp.val = 0 ∧ (0 : Fin 16).val = (stacked State.reset 1 0 0x206).sp.val - 1 ∧
    (stacked State.reset 15 0 0).sp.val < 16 ∧ (stacked State.reset 16 0 0).sp.val = 16 := by decide

/-- CallThenReturnComesBack: the callee's state is the CALL's own next state. -/
theorem witness_call_ret : State.reset.sp.val < 16 ∧
    ((execed (.call 0x300) State.reset).bind (execed .ret)).map (fun t => (t.pc, t.sp.val)) = some (0x202, 0) := by decide

/-- The encoding premises of the per-instruction statements: a word of each mask, with every free bit set. -/
theorem witness_encoded : (0x00EE : Word) &&& 0xFFFF = 0x00EE ∧ (0x3FFF : Word) &&& 0xF000 = 0x3000 ∧
    (0x8FF6 : Word) &&& 0xF00F = 0x8006 ∧ (0xFF55 : Word) &&& 0xF0FF = 0xF055 ∧
    opClass 0x5001 = 0x5 ∧ opClass 0x9001 = 0x9 ∧ nField 0x5001 ≠ 0 := by decide

/-- X ≠ VF, and registers other than X and VF. -/
theorem witness_registers : (0xE : RegIdx) ≠ VF ∧ (1 : RegIdx) ≠ 0 ∧ (1 : RegIdx) ≠ VF ∧ (2 : RegIdx) ≤ 2 := by decide

/-- The range premises of FX33, FX55, FX65 and DXYN, on both sides of each edge. -/
theorem witness_ranges : (State.reset.setI 0xFFD).i.toNat + 2 ≤ 0xFFF ∧ (State.reset.setI 0xFFE).i.toNat + 2 > 0xFFF ∧
    (State.reset.setI 0xFF0).i.toNat + (0xF : RegIdx).val ≤ 0xFFF ∧
    (State.reset.setI 0xFF1).i.toNat + (0xF : RegIdx).val > 0xFFF ∧
    (State.reset.setI 0x1000).i.toNat + (0 : RegIdx).val > 0xFFF ∧
    ((0 : BitVec 4).toNat = 0) ∧ (State.reset.setI 0xFFF).i.toNat + (1 : BitVec 4).toNat - 1 ≤ 0xFFF ∧
    ¬((2 : BitVec 4).toNat = 0 ∨ (State.reset.setI 0xFFF).i.toNat + (2 : BitVec 4).toNat - 1 ≤ 0xFFF) := by decide

/-- CollisionIsOldPixelUnderASpriteBit and DrawingTwiceRestoresTheDisplay: a draw that collides, and one over a clear
display, at a boundary column. -/
theorem witness_collides : SpriteCollides (lit (at_ 0x300 [0x01]) 7) 0 1 1 ∧ ¬SpriteCollides (at_ 0x300 [0x00]) 0 1 1 ∧
    (0 : RegIdx) ≠ VF ∧ (1 : RegIdx) ≠ VF ∧ spritePixel (at_ 0x300 [0x01]) 0 7 = true := by
  refine ⟨⟨0, 7, by decide, by decide, by decide, by decide⟩, ?_, by decide, by decide, by decide⟩
  rintro ⟨r, j, hr, hj, -, h⟩
  obtain rfl : r = 0 := by omega
  have hb : readByte (at_ 0x300 [0x00]).mem ((at_ 0x300 [0x00]).i.toNat + 0) = 0 := by decide
  rw [spritePixel, hb] at h
  simp at h

/-- KeySkips: key 0xF down, key 0xF up, and index 0x10. -/
theorem witness_key_skips : ((vs [0xF]).getV 0).toNat ≤ 0xF ∧ (keys (vs [0xF]) 0x8000).key.getLsbD 0xF = true ∧
    (keys (vs [0xF]) 0).key.getLsbD 0xF = false ∧ ((vs [0x10]).getV 0).toNat > 0xF := by decide

/-- KeyWaitTakesTheLowestKey: no key; key 0; key 15 alone. -/
theorem witness_key_wait : (∀ k < 16, State.reset.key.getLsbD k = false) ∧ (keys State.reset 1).key.getLsbD 0 = true ∧
    (keys State.reset 0x8000).key.getLsbD 15 = true ∧ (∀ k < 15, (keys State.reset 0x8000).key.getLsbD k = false) := by
  decide

end Sys2Proof.Machine.Tests
end

section
/-! PROOF. The key flags (R30): what an instruction, a step and each event leave of KEY. -/

namespace Sys2Proof.Machine

variable {s t : State}

/-! ### The session after an event, one equation or inversion per event -/

/-- An accepted reset, as the session after it. -/
theorem Session.after_reset (font : List Byte) (p : Session) (h : font.length = 80) :
    p.after (.reset font) = ⟨resetWith font p.machine.draws, true⟩ := by
  simp [Session.after, Session.issue, WellFormed.font, h]

/-- A step that is enabled ends the boot state and leaves the state `step` answers; any other leaves the session. -/
theorem Session.after_step_cases (p : Session) :
    p.after .step = p ∨ ∃ t, step p.machine = .next t ∧ p.after .step = ⟨t, false⟩ := by
  simp only [Session.after, Session.issue]
  cases step p.machine with
  | next t => exact .inr ⟨t, rfl, rfl⟩
  | fault _ => exact .inl rfl
  | refused _ => exact .inl rfl

/-- A load writes memory, or is refused and leaves the session. -/
theorem Session.after_loadProgram_cases (bytes : List Byte) (p : Session) :
    p.after (.loadProgram bytes) = p ∨
    p.after (.loadProgram bytes) = ⟨p.machine.setMem (writeBytes p.machine.mem 0x200 bytes), true⟩ := by
  simp only [Session.after, Session.issue, loadProgram]
  cases p.booting with
  | false => exact .inl rfl
  | true =>
    cases WellFormed.image bytes with
    | false => exact .inl rfl
    | true => exact .inr rfl

/-! ### KEY after the operations that can fail -/

theorem raise_key {f : FaultStatus} (h : raise f s = .next t) : t.key = s.key := by
  cases h; rfl

theorem State.push_key {a : Word} (h : s.push a = some t) : t.key = s.key := by
  unfold State.push at h
  split at h <;> cases h
  rfl

theorem State.pop_key {a : Word} (h : s.pop = some (a, t)) : t.key = s.key := by
  unfold State.pop at h
  split at h <;> cases h
  rfl

/-- An instruction that checks its range first: it does its work, or enters the fault. -/
theorem guarded_key {u : State} {c : Bool} {f : FaultStatus}
    (h : (if c then .next u else raise f s) = (.next t : Result)) (hu : u.key = s.key) : t.key = s.key := by
  cases c with
  | false => exact raise_key h
  | true => cases h; exact hu

/-! ### KEY after an instruction, a step and an event -/

/-- No instruction writes a key flag (R30). -/
theorem exec_key (i : Instr) (h : exec i s = .next t) : t.key = s.key := by
  cases i
  case ret =>
    simp only [exec, execRet] at h
    split at h
    next hpop => cases h; rw [State.jumpTo_key, State.pop_key hpop]
    next => exact raise_key h
  case call =>
    simp only [exec, execCall] at h
    split at h
    next hpush => cases h; rw [State.jumpTo_key, State.push_key hpush]
    next => exact raise_key h
  case ldVxK =>
    simp only [exec, execLdVxK] at h
    split at h <;> cases h <;> rfl
  case draw => exact guarded_key h rfl
  case ldB => exact guarded_key h rfl
  case storeRegs => exact guarded_key h rfl
  case loadRegs => exact guarded_key h rfl
  all_goals
    cases h
    rfl

/-- No step writes a key flag: neither the fetch's fault, nor an instruction, nor an unmapped word. -/
theorem step_key (h : step s = .next t) : t.key = s.key := by
  obtain ⟨-, hs⟩ | ⟨-, -, -, hs⟩ | ⟨w, i, -, -, -, hs⟩ | ⟨w, u, -, -, -, hs⟩ := step_cases s <;> rw [hs] at h
  · cases h
  · exact raise_key h
  · exact exec_key i h
  · cases h; rfl

/-- Of the events only `key_set` and `reset` write a key flag (R30). -/
theorem Session.after_key (e : Event) (p : Session) (hset : ∀ k b, e ≠ .keySet k b) (hreset : ∀ font, e ≠ .reset font) :
    (p.after e).machine.key = p.machine.key := by
  cases e with
  | reset font => exact absurd rfl (hreset font)
  | keySet k b => exact absurd rfl (hset k b)
  | loadProgram bytes =>
    obtain h | h := p.after_loadProgram_cases bytes
    · rw [h]
    · rw [h, State.setMem_key]
  | step =>
    obtain h | ⟨t, ht, h⟩ := p.after_step_cases
    · rw [h]
    · rw [h]; exact step_key ht
  | tick =>
    by_cases hf : p.machine.fault = .none
    · rw [Session.after_tick p hf]
    · rw [Session.after_tick_faulted p hf]

/-- Settles O21: an instruction and the other events keep KEY, and the reset value of KEY is 0 (R30). -/
theorem onlyKeySetAndResetWriteKeyFlags : Obligations.OnlyKeySetAndResetWriteKeyFlags := by
  refine ⟨fun i _ _ => exec_key i, Session.after_key, fun font p h => ?_⟩
  rw [Session.after_reset font p h]
  rfl

end Sys2Proof.Machine
end

section
/-! PROOF. Instruction fetch (R54): the fields of the fetched word as the nibbles of its two bytes. -/

namespace Sys2Proof

/-! ### Fields of a word as numbers (R81) -/

theorem opClass_toNat (w : Word) : (opClass w).toNat = w.toNat / 4096 := by
  simp only [opClass, BitVec.extractLsb'_toNat, Nat.shiftRight_eq_div_pow]
  omega

theorem xField_val (w : Word) : (xField w).val = w.toNat / 256 % 16 := by
  simp only [xField, BitVec.val_toFin, BitVec.extractLsb'_toNat, Nat.shiftRight_eq_div_pow]

/-! ### The same fields of two bytes, high byte first (R54) -/

section
variable (hi lo : Byte)

theorem opClass_wordOfBytes : (opClass (wordOfBytes hi lo)).toNat = hi.toNat / 16 := by
  rw [opClass_toNat, wordOfBytes_toNat]
  omega

theorem xField_wordOfBytes : (xField (wordOfBytes hi lo)).val = hi.toNat % 16 := by
  rw [xField_val, wordOfBytes_toNat]
  omega

@[simp] theorem nnField_wordOfBytes : nnField (wordOfBytes hi lo) = lo := lowByte_wordOfBytes hi lo

end

end Sys2Proof

namespace Sys2Proof.Machine

/-- Inside memory the fetch yields the two bytes from PC on. -/
theorem fetchWord_of_le {s : State} (h : s.pc.toNat + 1 ≤ 0xFFF) :
    fetchWord s = some (wordOfBytes (readByte s.mem s.pc.toNat) (readByte s.mem (s.pc.toNat + 1))) := by
  rw [fetchWord_eq, if_pos h]

/-- Settles O9: the fetch puts the byte at PC first, and each field lies in one of the two bytes (R54). -/
theorem fetchReadsTheHighByteFirst : Obligations.FetchReadsTheHighByteFirst := fun _ h =>
  ⟨_, fetchWord_of_le h, wordOfBytes_toNat .., opClass_wordOfBytes .., xField_wordOfBytes .., nnField_wordOfBytes ..⟩

end Sys2Proof.Machine
end

section
/-! PROOF. The word's fields (R81): Y, N, NN and NNN as numbers, of a word and of the two fetched bytes; opClass and X
stand with the instruction fetch above. -/

namespace Sys2Proof

theorem yField_val (w : Word) : (yField w).val = w.toNat / 16 % 16 := by
  simp only [yField, BitVec.val_toFin, BitVec.extractLsb'_toNat, Nat.shiftRight_eq_div_pow]

theorem nField_toNat (w : Word) : (nField w).toNat = w.toNat % 16 := by
  simp only [nField, BitVec.extractLsb'_toNat, Nat.shiftRight_zero]

theorem nnField_toNat (w : Word) : (nnField w).toNat = w.toNat % 256 := by
  simp only [nnField, BitVec.extractLsb'_toNat, Nat.shiftRight_zero]

theorem nnnField_toNat (w : Word) : (nnnField w).toNat = w.toNat % 4096 := by
  simp only [nnnField, BitVec.extractLsb'_toNat, Nat.shiftRight_zero]

section
variable (hi lo : Byte)

theorem yField_wordOfBytes : (yField (wordOfBytes hi lo)).val = lo.toNat / 16 := by
  rw [yField_val, wordOfBytes_toNat]
  omega

theorem nField_wordOfBytes : (nField (wordOfBytes hi lo)).toNat = lo.toNat % 16 := by
  rw [nField_toNat, wordOfBytes_toNat]
  omega

theorem nnnField_wordOfBytes : (nnnField (wordOfBytes hi lo)).toNat = hi.toNat % 16 * 256 + lo.toNat := by
  rw [nnnField_toNat, wordOfBytes_toNat]
  omega

end

/-- Settles O1, field by field, for a word and for two fetched bytes (R81). -/
theorem wordFieldsAreTheirBits : Obligations.WordFieldsAreTheirBits :=
  ⟨fun w => ⟨opClass_toNat w, xField_val w, yField_val w, nField_toNat w, nnField_toNat w, nnnField_toNat w⟩,
   fun hi lo => ⟨opClass_wordOfBytes hi lo, xField_wordOfBytes hi lo, yField_wordOfBytes hi lo, nField_wordOfBytes hi lo,
     nnField_wordOfBytes hi lo, nnnField_wordOfBytes hi lo⟩⟩

end Sys2Proof
end

section
/-! PROOF. The step as fetch, decode and execute (R80), one equation for each outcome of the fetch. -/

namespace Sys2Proof.Machine

variable {s : State} {w : Word}

/-- Past the end of memory there is no word to fetch. -/
theorem fetchWord_of_gt (h : s.pc.toNat + 1 > 0xFFF) : fetchWord s = none := by
  rw [fetchWord_eq, if_neg (by omega)]

/-! ### A fetched word, run -/

theorem runWord_of_ok {i : Instr} (h : decode w = .ok i) : runWord w s = exec i s := by
  simp only [runWord, h]

theorem runWord_of_error {u : Unmapped} (h : decode w = .error u) : runWord w s = .next s.advance := by
  simp only [runWord, h, execUnmapped]

/-! ### The step, by what the fetch answers -/

theorem step_of_fetched (hf : s.fault = .none) (hw : fetchWord s = some w) : step s = runWord w s := by
  simp only [step, if_pos hf, hw]

theorem step_of_not_fetched (hf : s.fault = .none) (hw : fetchWord s = none) : step s = raise .addressFault s := by
  simp only [step, if_pos hf, hw]

/-- Settles O7: the word of the two bytes at PC is run where there is one, and else the fetch's fault is raised (R80). -/
theorem stepFetchesThenExecutes : Obligations.StepFetchesThenExecutes := by
  refine fun s hf => ⟨fun h => ⟨_, wordOfBytes_toNat .., ?_⟩, fun h => step_of_not_fetched hf (fetchWord_of_gt h)⟩
  rw [step_of_fetched hf (fetchWord_of_le h)]
  cases hd : decode (wordOfBytes (readByte s.mem s.pc.toNat) (readByte s.mem (s.pc.toNat + 1))) with
  | ok i => exact runWord_of_ok hd
  | error u => exact runWord_of_error hd

end Sys2Proof.Machine
end

section
/-! PROOF. Jumps and skips (R102, R104 to R108): the instructions that change nothing but PC. -/

namespace Sys2Proof

/-! ### The decoder on the classes of the jumps and skips (R85) -/

section
variable {w : Word}

theorem decode_class1 (h : opClass w = 0x1#4) : decode w = .ok (.jp (nnnField w)) := by
  simp only [decode, h]

theorem decode_class3 (h : opClass w = 0x3#4) : decode w = .ok (.seImm (xField w) (nnField w)) := by
  simp only [decode, h]

theorem decode_class4 (h : opClass w = 0x4#4) : decode w = .ok (.sneImm (xField w) (nnField w)) := by
  simp only [decode, h]

theorem decode_class5 (h : opClass w = 0x5#4) :
    decode w = if nField w = 0x0#4 then .ok (.seReg (xField w) (yField w)) else .error .class5 := by
  simp only [decode, h]

theorem decode_class9 (h : opClass w = 0x9#4) :
    decode w = if nField w = 0x0#4 then .ok (.sneReg (xField w) (yField w)) else .error .class9 := by
  simp only [decode, h]

theorem decode_classB (h : opClass w = 0xB#4) : decode w = .ok (.jpV0 (nnnField w)) := by
  simp only [decode, h]

end

end Sys2Proof

namespace Sys2Proof.Machine

/-! ### Rows of R86 from the decoder's classes -/

section
variable {k : Word} {f : Word → Instr}

/-- A row whose only literal digit is the class. -/
theorem encodedAs_of_class (h : ∀ w, opClass w = opClass k → decode w = .ok (f w)) : EncodedAs 0xF000 k f :=
  fun w hw => h w (opClass_of_masked hw rfl)

/-- A row whose literal digits are the class and N. -/
theorem encodedAs_of_class_n (h : ∀ w, opClass w = opClass k → nField w = nField k → decode w = .ok (f w)) :
    EncodedAs 0xF00F k f :=
  fun w hw => h w (opClass_of_masked hw rfl) (nField_of_masked hw rfl)

end

/-! ### A jump and a skip change PC alone -/

section
variable (s : State)

theorem sameBut_jumpTo (a : Word) : SameBut [.pc] s (s.jumpTo a) := by
  simp [SameBut]

theorem sameBut_skipIf (c : Bool) : SameBut [.pc] s (s.skipIf c) := sameBut_jumpTo s _

/-- The target of BNNN: the sum of a 12-bit and an 8-bit number does not wrap (R104). -/
theorem addrOperand_add_zext16_toNat (nnn : BitVec 12) (b : Byte) :
    (addrOperand nnn + zext16 b).toNat = nnn.toNat + b.toNat := by
  have hn := nnn.isLt
  have hb := b.isLt
  rw [BitVec.toNat_add, addrOperand_toNat, zext16_toNat]
  omega

/-- PC after a skip, modulo 2^16. -/
theorem skipIf_pc_toNat (c : Bool) :
    (s.skipIf c).pc.toNat = (if c then s.pc.toNat + 4 else s.pc.toNat + 2) % 65536 := by
  cases c with
  | false => exact BitVec.toNat_add s.pc 2
  | true => exact BitVec.toNat_add s.pc 4

end

/-- What every skip answers, with its condition as a proposition. -/
theorem skip_spec {s : State} {r : Result} {c : Bool} {p : Prop} [Decidable p] (hr : r = .next (s.skipIf c))
    (hc : c = true ↔ p) : ∃ t, r = .next t ∧
      t.pc.toNat = (if p then s.pc.toNat + 4 else s.pc.toNat + 2) % 65536 ∧ SameBut [.pc] s t := by
  refine ⟨s.skipIf c, hr, ?_, sameBut_skipIf s c⟩
  rw [skipIf_pc_toNat]
  simp only [hc]

/-! ### The skip conditions, on the numbers the registers hold -/

theorem beq_iff_toNat_eq (a b : Byte) : (a == b) = true ↔ a.toNat = b.toNat :=
  beq_iff_eq.trans BitVec.toNat_inj.symm

theorem bne_iff_toNat_ne (a b : Byte) : (a != b) = true ↔ a.toNat ≠ b.toNat :=
  bne_iff_ne.trans BitVec.toNat_inj.not.symm

/-! ### The obligations -/

/-- Settles O35: each row decodes by its class, and the target is the operand, or the operand plus V0 (R102, R104). -/
theorem jumpsSetThePc : Obligations.JumpsSetThePc := by
  refine ⟨encodedAs_of_class fun _ => decode_class1, encodedAs_of_class fun _ => decode_classB, fun nnn s => ⟨?_, ?_⟩⟩
  · exact ⟨_, rfl, addrOperand_toNat nnn, sameBut_jumpTo s _⟩
  · exact ⟨_, rfl, addrOperand_add_zext16_toNat nnn (s.getV 0), sameBut_jumpTo s _⟩

/-- Settles O38: each row decodes by its class, and both skips compare V[X] with NN (R105, R106). -/
theorem skipsOnImmediate : Obligations.SkipsOnImmediate := by
  refine ⟨encodedAs_of_class fun _ => decode_class3, encodedAs_of_class fun _ => decode_class4, fun x nn s => ⟨?_, ?_⟩⟩
  · exact skip_spec rfl (beq_iff_toNat_eq (s.getV x) nn)
  · exact skip_spec rfl (bne_iff_toNat_ne (s.getV x) nn)

/-- Settles O39: each row decodes by its class and N = 0, any other N is unmapped, and both skips compare V[X] with V[Y]
(R107, R108). -/
theorem skipsOnRegisters : Obligations.SkipsOnRegisters := by
  refine ⟨encodedAs_of_class_n fun _ hc hn => (decode_class5 hc).trans (if_pos hn),
    encodedAs_of_class_n fun _ hc hn => (decode_class9 hc).trans (if_pos hn), ?_, fun x y s => ⟨?_, ?_⟩⟩
  · rintro w (hc | hc) hn
    · exact ⟨.class5, (decode_class5 hc).trans (if_neg hn)⟩
    · exact ⟨.class9, (decode_class9 hc).trans (if_neg hn)⟩
  · exact skip_spec rfl (beq_iff_toNat_eq (s.getV x) (s.getV y))
  · exact skip_spec rfl (bne_iff_toNat_ne (s.getV x) (s.getV y))

end Sys2Proof.Machine
end

section
/-! PROOF. Register load, arithmetic and logic (R120 to R131): the instructions that write V[X], and those that write the
flag after it. -/

namespace Sys2Proof

/-! ### The decoder on classes 0x6 and 0x7, and on class 0x8 by N (R85) -/

section
variable {w : Word}

theorem decode_class6 (h : opClass w = 0x6#4) : decode w = .ok (.ldImm (xField w) (nnField w)) := by
  simp only [decode, h]

theorem decode_class7 (h : opClass w = 0x7#4) : decode w = .ok (.addImm (xField w) (nnField w)) := by
  simp only [decode, h]

theorem decode_class8 (h : opClass w = 0x8#4) : decode w = decode8 w := by
  simp only [decode, h]

theorem decode8_n0 (h : nField w = 0x0#4) : decode8 w = .ok (.ldReg (xField w) (yField w)) := by
  simp only [decode8, h]

theorem decode8_n1 (h : nField w = 0x1#4) : decode8 w = .ok (.orReg (xField w) (yField w)) := by
  simp only [decode8, h]

theorem decode8_n2 (h : nField w = 0x2#4) : decode8 w = .ok (.andReg (xField w) (yField w)) := by
  simp only [decode8, h]

theorem decode8_n3 (h : nField w = 0x3#4) : decode8 w = .ok (.xorReg (xField w) (yField w)) := by
  simp only [decode8, h]

theorem decode8_n4 (h : nField w = 0x4#4) : decode8 w = .ok (.addReg (xField w) (yField w)) := by
  simp only [decode8, h]

theorem decode8_n5 (h : nField w = 0x5#4) : decode8 w = .ok (.subReg (xField w) (yField w)) := by
  simp only [decode8, h]

theorem decode8_n6 (h : nField w = 0x6#4) : decode8 w = .ok (.shr (xField w) (yField w)) := by
  simp only [decode8, h]

theorem decode8_n7 (h : nField w = 0x7#4) : decode8 w = .ok (.subnReg (xField w) (yField w)) := by
  simp only [decode8, h]

theorem decode8_nE (h : nField w = 0xE#4) : decode8 w = .ok (.shl (xField w) (yField w)) := by
  simp only [decode8, h]

end

end Sys2Proof

namespace Sys2Proof.Machine

/-- A row of class 0x8, from the decoder of that class at the row's N. -/
theorem encodedAs_of_class8 {k : Word} {f : Word → Instr} (hk : opClass k = 0x8#4)
    (h : ∀ {w}, nField w = nField k → decode8 w = .ok (f w)) : EncodedAs 0xF00F k f :=
  encodedAs_of_class_n fun _ hc hn => (decode_class8 (hc.trans hk)).trans (h hn)

/-! ### The flags as numbers (R22, R133) -/

section
variable (a b : Byte)

theorem carryOut_toNat : (carryOut a b).toNat = if a.toNat + b.toNat > 255 then 1 else 0 := Bool.cond_decide ..

theorem noBorrow_toNat : (noBorrow a b).toNat = if a.toNat > b.toNat then 1 else 0 := Bool.cond_decide ..

theorem lowBit_toNat : (lowBit a).toNat = a.toNat % 2 := by
  refine (Nat.toNat_testBit a.toNat 0).trans ?_
  rw [Nat.pow_zero, Nat.div_one]

theorem highBit_toNat : (highBit a).toNat = a.toNat / 128 := by
  have ha := a.isLt
  refine (Nat.toNat_testBit a.toNat 7).trans ?_
  omega

/-- The difference over the integers, modulo 256 (R128, R130). -/
theorem sub_toNat_int : ((a - b).toNat : Int) = (a.toNat - b.toNat) % 256 := by
  have hb := b.isLt
  rw [BitVec.toNat_sub]
  omega

end

/-! ### What the two writes of R120 answer -/

section
variable (s : State) (x : RegIdx) (b : Byte)

/-- A result alone: V[X] and PC. -/
theorem writeResult_spec : ∃ t, writeResult s x b = .next t ∧ (∀ j, t.getV j = if j = x then b else s.getV j) ∧
    t.pc = s.pc + 2 ∧ SameBut [.v, .pc] s t :=
  ⟨_, rfl, State.setV_getV s x b, rfl, by simp [SameBut]⟩

/-- The same, with the register written apart from the others. -/
theorem writeResult_spec_of_ne : ∃ t, writeResult s x b = .next t ∧ t.getV x = b ∧
    (∀ j, j ≠ x → t.getV j = s.getV j) ∧ t.pc = s.pc + 2 ∧ SameBut [.v, .pc] s t := by
  obtain ⟨t, ht, hv, hrest⟩ := writeResult_spec s x b
  exact ⟨t, ht, (hv x).trans (if_pos rfl), fun j hj => (hv j).trans (if_neg hj), hrest⟩

/-- A result and then the flag, which stands when X is 0xF (R23): V[X], VF and PC. -/
theorem writeResultAndFlag_spec (flag : Bool) : ∃ t, writeResultAndFlag s x b flag = .next t ∧
    (t.getV VF).toNat = flag.toNat ∧ (x ≠ VF → t.getV x = b) ∧
    (∀ j, j ≠ x → j ≠ VF → t.getV j = s.getV j) ∧ t.pc = s.pc + 2 ∧ SameBut [.v, .pc] s t := by
  refine ⟨_, rfl, ?_, fun hx => ?_, fun j hj hf => ?_, rfl, by simp [SameBut]⟩
  · cases flag <;> simp
  · simp [hx]
  · simp [hj, hf]

end

/-! ### The instructions of one shape -/

section
variable {s : State} {x y : RegIdx} {r : Result}

/-- 8XY1 to 8XY3: each bit of the result is `op` of the operands' bits (R124 to R126). -/
theorem logic_spec {b : Byte} (op : Bool → Bool → Bool) (hr : r = writeResult s x b)
    (hb : ∀ k, b.getLsbD k = op ((s.getV x).getLsbD k) ((s.getV y).getLsbD k)) : ∃ t, r = .next t ∧
      (∀ k, (t.getV x).getLsbD k = op ((s.getV x).getLsbD k) ((s.getV y).getLsbD k)) ∧
      (∀ j, j ≠ x → t.getV j = s.getV j) ∧ t.pc = s.pc + 2 ∧ SameBut [.v, .pc] s t := by
  obtain ⟨t, ht, hx, hrest⟩ := writeResult_spec_of_ne s x b
  exact ⟨t, hr.trans ht, hx ▸ hb, hrest⟩

/-- 8XY5 and 8XY7, which differ in which operand is the minuend `m` and which the subtrahend `u` (R128, R130). -/
theorem subtract_spec (m u : Byte) (hr : r = writeResultAndFlag s x (m - u) (noBorrow m u)) : ∃ t, r = .next t ∧
      (t.getV VF).toNat = (if m.toNat > u.toNat then 1 else 0) ∧
      (x ≠ VF → ((t.getV x).toNat : Int) = (m.toNat - u.toNat) % 256) ∧
      (∀ j, j ≠ x → j ≠ VF → t.getV j = s.getV j) ∧ t.pc = s.pc + 2 ∧ SameBut [.v, .pc] s t := by
  obtain ⟨t, ht, hf, hx, hrest⟩ := writeResultAndFlag_spec s x (m - u) (noBorrow m u)
  exact ⟨t, hr.trans ht, hf.trans (noBorrow_toNat m u), fun h => hx h ▸ sub_toNat_int m u, hrest⟩

end

/-! ### The obligations -/

/-- Settles O40: each row decodes by its class, or class and N, and each instruction writes its result alone
(R121 to R123). -/
theorem loadsAndAddImmediate : Obligations.LoadsAndAddImmediate := by
  refine ⟨encodedAs_of_class fun _ => decode_class6, encodedAs_of_class fun _ => decode_class7,
    encodedAs_of_class8 rfl decode8_n0, fun x y nn s => ⟨writeResult_spec s x nn, ?_, writeResult_spec s x (s.getV y)⟩⟩
  obtain ⟨t, ht, hx, hrest⟩ := writeResult_spec_of_ne s x (s.getV x + nn)
  exact ⟨t, ht, hx ▸ BitVec.toNat_add .., hrest⟩

/-- Settles O41: each row decodes by class and N, and each operation is the one of its name on every bit
(R124 to R126). -/
theorem logicIsBitwise : Obligations.LogicIsBitwise := by
  refine ⟨encodedAs_of_class8 rfl decode8_n1, encodedAs_of_class8 rfl decode8_n2, encodedAs_of_class8 rfl decode8_n3,
    fun x y s => ⟨?_, ?_, ?_⟩⟩
  · exact logic_spec or rfl fun _ => BitVec.getLsbD_or
  · exact logic_spec and rfl fun _ => BitVec.getLsbD_and
  · exact logic_spec bne rfl fun _ => BitVec.getLsbD_xor

/-- Settles O42: the row decodes by class and N, and the carry is written after the sum (R127). -/
theorem addSetsTheCarry : Obligations.AddSetsTheCarry := by
  refine ⟨encodedAs_of_class8 rfl decode8_n4, fun x y s => ?_⟩
  obtain ⟨t, ht, hf, hx, hrest⟩ :=
    writeResultAndFlag_spec s x (s.getV x + s.getV y) (carryOut (s.getV x) (s.getV y))
  exact ⟨t, ht, hf.trans (carryOut_toNat ..), fun h => hx h ▸ BitVec.toNat_add .., hrest⟩

/-- Settles O43: each row decodes by class and N, and one subtraction serves both orders of the operands (R128, R130). -/
theorem subtractSetsTheStrictComparison : Obligations.SubtractSetsTheStrictComparison := by
  refine ⟨encodedAs_of_class8 rfl decode8_n5, encodedAs_of_class8 rfl decode8_n7, fun x y s => ⟨?_, ?_⟩⟩
  · exact subtract_spec (s.getV x) (s.getV y) rfl
  · exact subtract_spec (s.getV y) (s.getV x) rfl

/-- Settles O44: each row decodes by class and N, and Y is in neither the result nor the flag, so one next state answers
for every Y (R129, R131). -/
theorem shiftsKeepTheBitShiftedOut : Obligations.ShiftsKeepTheBitShiftedOut := by
  refine ⟨encodedAs_of_class8 rfl decode8_n6, encodedAs_of_class8 rfl decode8_nE, fun x y s => ⟨?_, ?_⟩⟩
  · obtain ⟨t, ht, hf, hx, hrest⟩ := writeResultAndFlag_spec s x (s.getV x >>> 1) (lowBit (s.getV x))
    exact ⟨t, fun _ => ht, ht, hf.trans (lowBit_toNat _), fun h => hx h ▸ BitVec.toNat_ushiftRight .., hrest⟩
  · obtain ⟨t, ht, hf, hx, hrest⟩ := writeResultAndFlag_spec s x (s.getV x <<< 1) (highBit (s.getV x))
    refine ⟨t, fun _ => ht, ht, hf.trans (highBit_toNat _), fun h => ?_, hrest⟩
    rw [hx h, BitVec.toNat_shiftLeft, Nat.shiftLeft_eq, Nat.pow_one]

end Sys2Proof.Machine
end

section
/-! PROOF. Index register and memory (R141, R143 to R146): the instructions that load I, and those that copy bytes between
registers and memory under one range check (R52). -/

namespace Sys2Proof

/-! ### The decoder on class 0xA, and on class 0xF by NN (R85) -/

section
variable {w : Word}

theorem decode_classA (h : opClass w = 0xA#4) : decode w = .ok (.ldI (nnnField w)) := by
  simp only [decode, h]

theorem decode_classF (h : opClass w = 0xF#4) : decode w = decodeF w := by
  simp only [decode, h]
  rfl

theorem decodeF_nn29 (h : nnField w = 0x29#8) : decodeF w = .ok (.ldF (xField w)) := by
  simp only [decodeF, h]

theorem decodeF_nn33 (h : nnField w = 0x33#8) : decodeF w = .ok (.ldB (xField w)) := by
  simp only [decodeF, h]

theorem decodeF_nn55 (h : nnField w = 0x55#8) : decodeF w = .ok (.storeRegs (xField w)) := by
  simp only [decodeF, h]

theorem decodeF_nn65 (h : nnField w = 0x65#8) : decodeF w = .ok (.loadRegs (xField w)) := by
  simp only [decodeF, h]

end

end Sys2Proof

namespace Sys2Proof.Machine

/-! ### Rows of R86 with the literal digits of class and NN -/

section
variable {k : Word} {f : Word → Instr}

/-- A row whose literal digits are the class and NN. -/
theorem encodedAs_of_class_nn (h : ∀ w, opClass w = opClass k → nnField w = nnField k → decode w = .ok (f w)) :
    EncodedAs 0xF0FF k f :=
  fun w hw => h w (opClass_of_masked hw rfl) (nnField_of_masked hw rfl)

/-- A row of class 0xF, from the decoder of that class at the row's NN. -/
theorem encodedAs_of_classF (hk : opClass k = 0xF#4) (h : ∀ {w}, nnField w = nnField k → decodeF w = .ok (f w)) :
    EncodedAs 0xF0FF k f :=
  encodedAs_of_class_nn fun _ hc hn => (decode_classF (hc.trans hk)).trans (h hn)

end

/-! ### The range check of the copies (R52) -/

section
variable {a n : Nat}

/-- The check of an access whose last byte is at `a + n`. -/
theorem inRange_succ_iff : inRange a (n + 1) = true ↔ a + n ≤ 0xFFF := by
  rw [inRange_iff]
  omega

variable {s u : State} {f : FaultStatus}

/-- A copy in range does its work. -/
theorem ite_inRange_of_le (h : a + n ≤ 0xFFF) :
    (if inRange a (n + 1) then .next u else raise f s) = (.next u : Result) :=
  if_pos (inRange_succ_iff.2 h)

/-- A copy out of range enters the fault and does nothing else (R203). -/
theorem ite_inRange_of_gt (h : a + n > 0xFFF) :
    (if inRange a (n + 1) then .next u else raise f s) = (.next { s with fault := f } : Result) :=
  if_neg fun hc => absurd (inRange_succ_iff.1 hc) (Nat.not_le.2 h)

end

/-! ### A run of stored bytes, read inside and outside it (R57, R60) -/

section
variable {m : Memory} {us : List Byte} {a k c : Nat}

theorem readByte_writeBytes_inside (h : k < us.length) : readByte (writeBytes m a us) (a + k) = us.getD k 0 := by
  rw [readByte_writeBytes, if_pos ⟨Nat.le_add_right a k, Nat.add_lt_add_left h a⟩, Nat.add_sub_cancel_left]

theorem readByte_writeBytes_outside (h : c < a ∨ a + us.length ≤ c) :
    readByte (writeBytes m a us) c = readByte m c := by
  rw [readByte_writeBytes, if_neg (by omega)]

end

/-- FX65's copy from memory: V0 to VX take the bytes from `a` on, the registers above stay. -/
theorem setRegs_readBytes_getV (s : State) (x : RegIdx) (a : Nat) (k : RegIdx) :
    (s.setRegs (readBytes s.mem a (x.val + 1))).getV k = if k ≤ x then readByte s.mem (a + k.val) else s.getV k := by
  have hle : k.val < x.val + 1 ↔ k ≤ x := Nat.lt_succ_iff
  simp only [State.setRegs_getV, length_readBytes, hle]
  split
  next hk => exact getD_readBytes _ _ _ _ (hle.2 hk)
  next => rfl

/-! ### Values of I, and the digits (R143 to R146) -/

/-- I after FX55 and FX65, modulo 2^16. -/
theorem bumpI_i_toNat (s : State) (x : RegIdx) : (s.bumpI x).i.toNat = (s.i.toNat + x.val + 1) % 65536 := by
  rw [State.bumpI_i, BitVec.toNat_add, BitVec.toNat_ofNat, Nat.add_mod_mod, Nat.add_assoc]

section
variable (b : Byte)

theorem bcdDigits_hundreds : ((bcdDigits b).getD 0 0).toNat = b.toNat / 100 := by
  have hb := b.isLt
  exact (BitVec.toNat_ofNat ..).trans (Nat.mod_eq_of_lt (by omega))

theorem bcdDigits_tens : ((bcdDigits b).getD 1 0).toNat = b.toNat / 10 % 10 :=
  (BitVec.toNat_ofNat ..).trans (Nat.mod_eq_of_lt (by omega))

theorem bcdDigits_ones : ((bcdDigits b).getD 2 0).toNat = b.toNat % 10 :=
  (BitVec.toNat_ofNat ..).trans (Nat.mod_eq_of_lt (by omega))

end

/-! ### A load of I changes I and PC alone -/

theorem sameBut_setI_advance (s : State) (a : Word) : SameBut [.i, .pc] s (s.setI a).advance := by
  simp [SameBut]

/-! ### The obligations -/

/-- Settles O46: the rows decode by class, and by class and NN; neither NNN nor five times a byte wraps (R141, R143). -/
theorem indexLoads : Obligations.IndexLoads := by
  refine ⟨encodedAs_of_class fun _ => decode_classA, encodedAs_of_classF rfl decodeF_nn29, fun nnn x s => ⟨?_, ?_⟩⟩
  · exact ⟨_, rfl, addrOperand_toNat nnn, rfl, sameBut_setI_advance s _⟩
  · exact ⟨_, rfl, glyphAddr_toNat (s.getV x), rfl, sameBut_setI_advance s _⟩

/-- Settles O48: the row decodes by class and NN, and in range the three digits are one run of stores at I (R144). -/
theorem decimalDigitsAreStored : Obligations.DecimalDigitsAreStored := by
  refine ⟨encodedAs_of_classF rfl decodeF_nn33, fun x s => ⟨fun h => ?_, ite_inRange_of_gt⟩⟩
  have inside {k} (hk : k < 3) : readByte (writeBytes s.mem s.i.toNat (bcdDigits (s.getV x))) (s.i.toNat + k) =
      (bcdDigits (s.getV x)).getD k 0 := readByte_writeBytes_inside hk
  refine ⟨_, ite_inRange_of_le h, ?_, ?_, ?_, fun a ha => readByte_writeBytes_outside ha, rfl, by simp [SameBut]⟩
  · exact (congrArg _ (inside (k := 0) (by decide))).trans (bcdDigits_hundreds _)
  · exact (congrArg _ (inside (by decide))).trans (bcdDigits_tens _)
  · exact (congrArg _ (inside (by decide))).trans (bcdDigits_ones _)

/-- Settles O49: the row decodes by class and NN, and in range V0 to VX are one run of stores at I (R145). -/
theorem registersAreStored : Obligations.RegistersAreStored := by
  refine ⟨encodedAs_of_classF rfl decodeF_nn55, fun x s => ⟨fun h => ?_, ite_inRange_of_gt⟩⟩
  have hlen : (s.regRange x).length = x.val + 1 := s.length_regRange x
  refine ⟨_, ite_inRange_of_le h, fun k hk => ?_, fun a ha => ?_, bumpI_i_toNat .., rfl, by simp [SameBut]⟩
  · exact (readByte_writeBytes_inside (hlen ▸ Nat.lt_succ_of_le hk)).trans (s.getD_regRange x k hk)
  · exact readByte_writeBytes_outside (by omega)

/-- Settles O50: the row decodes by class and NN, and in range the bytes from I on are put into V0 to VX (R146). -/
theorem registersAreLoaded : Obligations.RegistersAreLoaded := by
  refine ⟨encodedAs_of_classF rfl decodeF_nn65, fun x s => ⟨fun h => ?_, ite_inRange_of_gt⟩⟩
  exact ⟨_, ite_inRange_of_le h, setRegs_readBytes_getV s x s.i.toNat, bumpI_i_toNat .., rfl, by simp [SameBut]⟩

end Sys2Proof.Machine
end

section
/-! PROOF. The clearing of the display (R161): the rows with no operand, and the blank display buffer. -/

namespace Sys2Proof.Machine

/-- A row with all four digits literal: the mask leaves the word itself. -/
theorem encodedAs_of_word {k : Word} {i : Instr} (h : decode k = .ok i) : EncodedAs 0xFFFF k fun _ => i := fun w hw =>
  have hwk : w = k := BitVec.and_allOnes.symm.trans hw
  hwk ▸ h

theorem pixelAt_blankScreen (x y : Nat) : pixelAt blankScreen x y = false := by
  simp only [pixelAt, blankScreen, Vector.getElem_replicate]
  exact BitVec.getLsbD_zero

/-- A new display buffer changes FB and PC alone. -/
theorem sameBut_setFB_advance (s : State) (fb : FrameBuffer) : SameBut [.fb, .pc] s (s.setFB fb).advance := by
  simp [SameBut]

/-- Settles O51: the row is one word, and its meaning puts the blank display buffer into FB (R161). -/
theorem clearScreen : Obligations.ClearScreen := by
  refine ⟨encodedAs_of_word rfl, fun s => ⟨_, rfl, fun p _ => ?_, rfl, sameBut_setFB_advance s blankScreen⟩⟩
  rw [State.advance_pixel, State.setFB_pixel, pixelAt_blankScreen]

end Sys2Proof.Machine
end

section
/-! PROOF. The timers (R181 to R183): a register takes DT, or a timer takes a register. -/

namespace Sys2Proof

/-! ### The decoder on class 0xF, at the NN of the timer rows (R85) -/

section
variable {w : Word}

theorem decodeF_nn07 (h : nnField w = 0x07#8) : decodeF w = .ok (.ldVxDT (xField w)) := by
  simp only [decodeF, h]

theorem decodeF_nn15 (h : nnField w = 0x15#8) : decodeF w = .ok (.ldDTVx (xField w)) := by
  simp only [decodeF, h]

theorem decodeF_nn18 (h : nnField w = 0x18#8) : decodeF w = .ok (.ldSTVx (xField w)) := by
  simp only [decodeF, h]

end

end Sys2Proof

namespace Sys2Proof.Machine

/-! ### A load of a timer changes that timer and PC alone -/

section
variable (s : State) (b : Byte)

theorem sameBut_setDT_advance : SameBut [.dt, .pc] s (s.setDT b).advance := by
  simp [SameBut]

theorem sameBut_setST_advance : SameBut [.st, .pc] s (s.setST b).advance := by
  simp [SameBut]

end

/-- Settles O55: the rows decode by class and NN; FX07 writes a result alone, whose value is DT, and FX15 and FX18 each
put V[X] into their timer (R181 to R183). -/
theorem timersAreReadAndWritten : Obligations.TimersAreReadAndWritten := by
  refine ⟨encodedAs_of_classF rfl decodeF_nn07, encodedAs_of_classF rfl decodeF_nn15, encodedAs_of_classF rfl decodeF_nn18,
    fun x s => ⟨?_, ?_, ?_⟩⟩
  · exact writeResult_spec s x s.dt
  · exact ⟨_, rfl, rfl, rfl, sameBut_setDT_advance s (s.getV x)⟩
  · exact ⟨_, rfl, rfl, rfl, sameBut_setST_advance s (s.getV x)⟩

end Sys2Proof.Machine
end

section
/-! PROOF. The tone output (R217): no event but a tick pulses it, and a tick pulses it as ST expires. -/

namespace Sys2Proof.Machine

/-! ### The tone output during an event -/

/-- No event but a tick pulses the tone, whether it is accepted or not. -/
theorem Session.toneOf_of_ne_tick {e : Event} (p : Session) (he : e ≠ .tick) : p.toneOf e = false := by
  cases e with
  | tick => exact absurd rfl he
  | reset font =>
    simp only [Session.toneOf, Session.issue]
    cases WellFormed.font font <;> rfl
  | loadProgram bytes =>
    simp only [Session.toneOf, Session.issue, loadProgram]
    cases p.booting with
    | false => rfl
    | true => cases WellFormed.image bytes <;> rfl
  | step =>
    simp only [Session.toneOf, Session.issue]
    cases step p.machine <;> rfl
  | keySet k pressed =>
    simp only [Session.toneOf, Session.issue]
    cases WellFormed.keyIndex k <;> rfl

/-- The tone output of an accepted tick: a pulse when it finds ST at 1 (R211). -/
theorem Session.toneOf_tick (p : Session) (h : p.machine.fault = .none) :
    p.toneOf .tick = decide (p.machine.st = 1) := by
  simp [Session.toneOf, Session.issue, tick, tickTone, h, silently]

/-- A tick that is not enabled pulses no tone (R208). -/
theorem Session.toneOf_tick_faulted (p : Session) (h : p.machine.fault ≠ .none) : p.toneOf .tick = false := by
  simp [Session.toneOf, Session.issue, tick, h, silently]

/-! ### The tone output and ST -/

/-- A tick pulses the tone exactly when it takes ST from 1 to 0: accepted, it counts ST down, and after a fault it
leaves ST as it was. -/
theorem Session.toneOf_tick_iff (p : Session) :
    p.toneOf .tick = true ↔ p.machine.st.toNat = 1 ∧ (p.after .tick).machine.st.toNat = 0 := by
  by_cases hf : p.machine.fault = .none
  · have hst : p.machine.st = 1 ↔ p.machine.st.toNat = 1 := BitVec.toNat_inj.symm
    rw [Session.toneOf_tick p hf, Session.after_tick p hf, countDown_toNat, decide_eq_true_iff, hst]
    omega
  · rw [Session.toneOf_tick_faulted p hf, Session.after_tick_faulted p hf]
    simp only [Bool.false_eq_true, false_iff]
    omega

/-- Settles O24: of the events only a tick can pulse the tone, and a tick does so as it takes ST from 1 to 0 (R217). -/
theorem toneOnlyInTheExpiringTick : Obligations.ToneOnlyInTheExpiringTick := by
  intro e p
  by_cases he : e = .tick
  · rw [he, Session.toneOf_tick_iff]
    exact (and_iff_right rfl).symm
  · simp [Session.toneOf_of_ne_tick p he, he]

end Sys2Proof.Machine
end

section
/-! PROOF. Decoder and encoder (R81 to R87): each row decodes back to its instruction, each decoded word is its encoding,
and the unmapped words class by class. -/

namespace Sys2Proof

/-! ### The decoder on the other classes, and on the other NN of classes 0xE and 0xF (R85) -/

section
variable {w : Word}

theorem decode_class0 (h : opClass w = 0x0#4) : decode w = decode0 w := by
  simp only [decode, h]

theorem decode_class2 (h : opClass w = 0x2#4) : decode w = .ok (.call (nnnField w)) := by
  simp only [decode, h]

theorem decode_class5_n0 (hc : opClass w = 0x5#4) (hn : nField w = 0x0#4) :
    decode w = .ok (.seReg (xField w) (yField w)) :=
  (decode_class5 hc).trans (if_pos hn)

theorem decode_class9_n0 (hc : opClass w = 0x9#4) (hn : nField w = 0x0#4) :
    decode w = .ok (.sneReg (xField w) (yField w)) :=
  (decode_class9 hc).trans (if_pos hn)

theorem decode_classC (h : opClass w = 0xC#4) : decode w = .ok (.rnd (xField w) (nnField w)) := by
  simp only [decode, h]

theorem decode_classD (h : opClass w = 0xD#4) : decode w = .ok (.draw (xField w) (yField w) (nField w)) := by
  simp only [decode, h]

theorem decode_classE (h : opClass w = 0xE#4) : decode w = decodeE w := by
  simp only [decode, h]

theorem decodeE_nn9E (h : nnField w = 0x9E#8) : decodeE w = .ok (.skp (xField w)) := by
  simp only [decodeE, h]

theorem decodeE_nnA1 (h : nnField w = 0xA1#8) : decodeE w = .ok (.sknp (xField w)) := by
  simp only [decodeE, h]

theorem decodeF_nn0A (h : nnField w = 0x0A#8) : decodeF w = .ok (.ldVxK (xField w)) := by
  simp only [decodeF, h]

theorem decodeF_nn1E (h : nnField w = 0x1E#8) : decodeF w = .ok (.addI (xField w)) := by
  simp only [decodeF, h]

end

/-! ### Decoding an encoded word, format by format (R82) -/

section
variable {op : BitVec 4}

theorem decode_encA {f : BitVec 12 → Instr} (h : ∀ {w}, opClass w = op → decode w = .ok (f (nnnField w)))
    (nnn : BitVec 12) : decode (encA op nnn) = .ok (f nnn) := by
  rw [h (opClass_encA ..), nnnField_encA]

theorem decode_encXI {f : RegIdx → Byte → Instr}
    (h : ∀ {w}, opClass w = op → decode w = .ok (f (xField w) (nnField w))) (x : RegIdx) (nn : Byte) :
    decode (encXI op x nn) = .ok (f x nn) := by
  rw [h (opClass_encXI ..), xField_encXI, nnField_encXI]

/-- Format XF: a class whose decoder `d` reads the function code from NN. -/
theorem decode_encXF {nn : Byte} {d : Word → Except Unmapped Instr} {f : RegIdx → Instr}
    (hc : ∀ {w}, opClass w = op → decode w = d w) (hd : ∀ {w}, nnField w = nn → d w = .ok (f (xField w))) (x : RegIdx) :
    decode (encXI op x nn) = .ok (f x) := by
  rw [hc (opClass_encXI ..), hd (nnField_encXI ..), xField_encXI]

/-- Format XYF: a class whose decoder `d` reads the function code from N. -/
theorem decode_encXYF {n : BitVec 4} {d : Word → Except Unmapped Instr} {f : RegIdx → RegIdx → Instr}
    (hc : ∀ {w}, opClass w = op → decode w = d w) (hd : ∀ {w}, nField w = n → d w = .ok (f (xField w) (yField w)))
    (x y : RegIdx) : decode (encXYN op x y n) = .ok (f x y) := by
  rw [hc (opClass_encXYN ..), hd (nField_encXYN ..), xField_encXYN, yField_encXYN]

end

/-- Settles O3, row by row: the decoder finds the row's class, and its function code where it has one, and reads the
operands back. -/
theorem everyInstructionDecodesFromItsEncoding : Obligations.EveryInstructionDecodesFromItsEncoding
  | .cls => rfl
  | .ret => rfl
  | .jp nnn => decode_encA decode_class1 nnn
  | .call nnn => decode_encA decode_class2 nnn
  | .seImm x nn => decode_encXI decode_class3 x nn
  | .sneImm x nn => decode_encXI decode_class4 x nn
  | .seReg x y => decode_encXYF decode_class5 (fun hn => if_pos hn) x y
  | .ldImm x nn => decode_encXI decode_class6 x nn
  | .addImm x nn => decode_encXI decode_class7 x nn
  | .ldReg x y => decode_encXYF decode_class8 decode8_n0 x y
  | .orReg x y => decode_encXYF decode_class8 decode8_n1 x y
  | .andReg x y => decode_encXYF decode_class8 decode8_n2 x y
  | .xorReg x y => decode_encXYF decode_class8 decode8_n3 x y
  | .addReg x y => decode_encXYF decode_class8 decode8_n4 x y
  | .subReg x y => decode_encXYF decode_class8 decode8_n5 x y
  | .shr x y => decode_encXYF decode_class8 decode8_n6 x y
  | .subnReg x y => decode_encXYF decode_class8 decode8_n7 x y
  | .shl x y => decode_encXYF decode_class8 decode8_nE x y
  | .sneReg x y => decode_encXYF decode_class9 (fun hn => if_pos hn) x y
  | .ldI nnn => decode_encA decode_classA nnn
  | .jpV0 nnn => decode_encA decode_classB nnn
  | .rnd x nn => decode_encXI decode_classC x nn
  | .draw x y n => by
    rw [encode, decode_classD (opClass_encXYN ..), xField_encXYN, yField_encXYN, nField_encXYN]
  | .skp x => decode_encXF decode_classE decodeE_nn9E x
  | .sknp x => decode_encXF decode_classE decodeE_nnA1 x
  | .ldVxDT x => decode_encXF decode_classF decodeF_nn07 x
  | .ldVxK x => decode_encXF decode_classF decodeF_nn0A x
  | .ldDTVx x => decode_encXF decode_classF decodeF_nn15 x
  | .ldSTVx x => decode_encXF decode_classF decodeF_nn18 x
  | .addI x => decode_encXF decode_classF decodeF_nn1E x
  | .ldF x => decode_encXF decode_classF decodeF_nn29 x
  | .ldB x => decode_encXF decode_classF decodeF_nn33 x
  | .storeRegs x => decode_encXF decode_classF decodeF_nn55 x
  | .loadRegs x => decode_encXF decode_classF decodeF_nn65 x

/-! ### A decoded word is put back together from its fields -/

section
variable {w : Word} {op : BitVec 4} {i : Instr}

theorem encA_of_class (hc : opClass w = op) : encA op (nnnField w) = w := hc ▸ encA_fields w

theorem encXI_of_class (hc : opClass w = op) : encXI op (xField w) (nnField w) = w := hc ▸ encXI_fields w

theorem encXF_of_class {nn : Byte} (hc : opClass w = op) (hn : nnField w = nn) : encXI op (xField w) nn = w :=
  hn ▸ encXI_of_class hc

theorem encXYN_of_class {n : BitVec 4} (hc : opClass w = op) (hn : nField w = n) :
    encXYN op (xField w) (yField w) n = w := hn ▸ hc ▸ encXYN_fields w

theorem encode_of_decode0 (h : decode0 w = .ok i) : encode i = w := by
  unfold decode0 at h
  split at h
  next hw => cases h; exact hw.symm
  next =>
    split at h <;> cases h
    next hw => exact hw.symm

theorem encode_of_decode8 (hc : opClass w = 0x8#4) (h : decode8 w = .ok i) : encode i = w := by
  unfold decode8 at h
  split at h <;> cases h <;> exact encXYN_of_class hc ‹_›

theorem encode_of_decodeE (hc : opClass w = 0xE#4) (h : decodeE w = .ok i) : encode i = w := by
  unfold decodeE at h
  split at h <;> cases h <;> exact encXF_of_class hc ‹_›

theorem encode_of_decodeF (hc : opClass w = 0xF#4) (h : decodeF w = .ok i) : encode i = w := by
  unfold decodeF at h
  split at h <;> cases h <;> exact encXF_of_class hc ‹_›

end

/-- Settles O4, class by class: the decoder reads the operands from the word's fields, and the literal digits it tested
are the other ones. -/
theorem everyDecodedWordIsItsEncoding : Obligations.EveryDecodedWordIsItsEncoding := by
  intro w i h
  obtain hc | hc | hc | hc | hc | hc | hc | hc | hc | hc | hc | hc | hc | hc | hc | hc := nibble_cases (opClass w)
  · rw [decode_class0 hc] at h; exact encode_of_decode0 h
  · rw [decode_class1 hc] at h; cases h; exact encA_of_class hc
  · rw [decode_class2 hc] at h; cases h; exact encA_of_class hc
  · rw [decode_class3 hc] at h; cases h; exact encXI_of_class hc
  · rw [decode_class4 hc] at h; cases h; exact encXI_of_class hc
  · rw [decode_class5 hc] at h
    split at h <;> cases h
    next hn => exact encXYN_of_class hc hn
  · rw [decode_class6 hc] at h; cases h; exact encXI_of_class hc
  · rw [decode_class7 hc] at h; cases h; exact encXI_of_class hc
  · rw [decode_class8 hc] at h; exact encode_of_decode8 hc h
  · rw [decode_class9 hc] at h
    split at h <;> cases h
    next hn => exact encXYN_of_class hc hn
  · rw [decode_classA hc] at h; cases h; exact encA_of_class hc
  · rw [decode_classB hc] at h; cases h; exact encA_of_class hc
  · rw [decode_classC hc] at h; cases h; exact encXI_of_class hc
  · rw [decode_classD hc] at h; cases h; exact encXYN_of_class hc rfl
  · rw [decode_classE hc] at h; exact encode_of_decodeE hc h
  · rw [decode_classF hc] at h; exact encode_of_decodeF hc h

end Sys2Proof

namespace Sys2Proof.Machine

/-! ### The rows of R86 by mask and match -/

/-- A row of class 0xE, from the decoder of that class at the row's NN. -/
theorem encodedAs_of_classE {k : Word} {f : Word → Instr} (hk : opClass k = 0xE#4)
    (h : ∀ {w}, nnField w = nnField k → decodeE w = .ok (f w)) : EncodedAs 0xF0FF k f :=
  encodedAs_of_class_nn fun _ hc hn => (decode_classE (hc.trans hk)).trans (h hn)

/-- A word that matches a row decodes to an instruction of that row (R84). -/
theorem decode_of_masked {w : Word} (i : Instr) (h : w &&& i.mask = i.matchWord) :
    ∃ i', decode w = .ok i' ∧ i'.mask = i.mask ∧ i'.matchWord = i.matchWord := by
  cases i <;> dsimp only [Instr.mask, Instr.matchWord] at h ⊢
  case cls => exact ⟨_, encodedAs_of_word rfl w h, rfl, rfl⟩
  case ret => exact ⟨_, encodedAs_of_word rfl w h, rfl, rfl⟩
  case jp => exact ⟨_, encodedAs_of_class (fun _ => decode_class1) w h, rfl, rfl⟩
  case call => exact ⟨_, encodedAs_of_class (fun _ => decode_class2) w h, rfl, rfl⟩
  case seImm => exact ⟨_, encodedAs_of_class (fun _ => decode_class3) w h, rfl, rfl⟩
  case sneImm => exact ⟨_, encodedAs_of_class (fun _ => decode_class4) w h, rfl, rfl⟩
  case seReg => exact ⟨_, encodedAs_of_class_n (fun _ => decode_class5_n0) w h, rfl, rfl⟩
  case ldImm => exact ⟨_, encodedAs_of_class (fun _ => decode_class6) w h, rfl, rfl⟩
  case addImm => exact ⟨_, encodedAs_of_class (fun _ => decode_class7) w h, rfl, rfl⟩
  case ldReg => exact ⟨_, encodedAs_of_class8 rfl decode8_n0 w h, rfl, rfl⟩
  case orReg => exact ⟨_, encodedAs_of_class8 rfl decode8_n1 w h, rfl, rfl⟩
  case andReg => exact ⟨_, encodedAs_of_class8 rfl decode8_n2 w h, rfl, rfl⟩
  case xorReg => exact ⟨_, encodedAs_of_class8 rfl decode8_n3 w h, rfl, rfl⟩
  case addReg => exact ⟨_, encodedAs_of_class8 rfl decode8_n4 w h, rfl, rfl⟩
  case subReg => exact ⟨_, encodedAs_of_class8 rfl decode8_n5 w h, rfl, rfl⟩
  case shr => exact ⟨_, encodedAs_of_class8 rfl decode8_n6 w h, rfl, rfl⟩
  case subnReg => exact ⟨_, encodedAs_of_class8 rfl decode8_n7 w h, rfl, rfl⟩
  case shl => exact ⟨_, encodedAs_of_class8 rfl decode8_nE w h, rfl, rfl⟩
  case sneReg => exact ⟨_, encodedAs_of_class_n (fun _ => decode_class9_n0) w h, rfl, rfl⟩
  case ldI => exact ⟨_, encodedAs_of_class (fun _ => decode_classA) w h, rfl, rfl⟩
  case jpV0 => exact ⟨_, encodedAs_of_class (fun _ => decode_classB) w h, rfl, rfl⟩
  case rnd => exact ⟨_, encodedAs_of_class (fun _ => decode_classC) w h, rfl, rfl⟩
  case draw => exact ⟨_, encodedAs_of_class (fun _ => decode_classD) w h, rfl, rfl⟩
  case skp => exact ⟨_, encodedAs_of_classE rfl decodeE_nn9E w h, rfl, rfl⟩
  case sknp => exact ⟨_, encodedAs_of_classE rfl decodeE_nnA1 w h, rfl, rfl⟩
  case ldVxDT => exact ⟨_, encodedAs_of_classF rfl decodeF_nn07 w h, rfl, rfl⟩
  case ldVxK => exact ⟨_, encodedAs_of_classF rfl decodeF_nn0A w h, rfl, rfl⟩
  case ldDTVx => exact ⟨_, encodedAs_of_classF rfl decodeF_nn15 w h, rfl, rfl⟩
  case ldSTVx => exact ⟨_, encodedAs_of_classF rfl decodeF_nn18 w h, rfl, rfl⟩
  case addI => exact ⟨_, encodedAs_of_classF rfl decodeF_nn1E w h, rfl, rfl⟩
  case ldF => exact ⟨_, encodedAs_of_classF rfl decodeF_nn29 w h, rfl, rfl⟩
  case ldB => exact ⟨_, encodedAs_of_classF rfl decodeF_nn33 w h, rfl, rfl⟩
  case storeRegs => exact ⟨_, encodedAs_of_classF rfl decodeF_nn55 w h, rfl, rfl⟩
  case loadRegs => exact ⟨_, encodedAs_of_classF rfl decodeF_nn65 w h, rfl, rfl⟩

open Sys2Proof.Laws.EncodeMatchesRow in
/-- The encoding of every instruction matches its row, format by format. -/
theorem encode_masked (i : Instr) : encode i &&& i.mask = i.matchWord := by
  cases i
  case cls | ret => rfl
  case jp | call | ldI | jpV0 => exact encA_class ..
  case seImm | sneImm | ldImm | addImm | rnd => exact encXI_class ..
  case draw => exact encXYN_class ..
  case seReg | sneReg | ldReg | orReg | andReg | xorReg | addReg | subReg | shr | subnReg | shl =>
    exact encXYN_function ..
  case skp | sknp | ldVxDT | ldVxK | ldDTVx | ldSTVx | addI | ldF | ldB | storeRegs | loadRegs =>
    exact encXI_function ..

/-- Settles O5: matching a row leads to it, and a decoded word, which is its own encoding, matches the row it came to;
so a word that matches none is rejected. -/
theorem wordSelectsTheRowItMatches : Obligations.WordSelectsTheRowItMatches := by
  have row_of_decode (w : Word) (i : Instr) (h : decode w = .ok i) : w &&& i.mask = i.matchWord :=
    everyDecodedWordIsItsEncoding w i h ▸ encode_masked i
  refine ⟨fun w => decode_of_masked, row_of_decode, fun w => ⟨?_, fun h => ?_⟩⟩
  · rintro ⟨u, hu⟩ i hi
    obtain ⟨i', hd, -⟩ := decode_of_masked i hi
    cases hu.symm.trans hd
  · cases hd : decode w with
    | error u => exact ⟨u, rfl⟩
    | ok i => exact absurd (row_of_decode w i hd) (h i)

/-! ### The unmapped words (R87) -/

/-- The class digit of the words rejected under a name. -/
def unmappedClass : Unmapped → BitVec 4
  | .class0 => 0x0
  | .class5 => 0x5
  | .class8 => 0x8
  | .class9 => 0x9
  | .classE => 0xE
  | .classF => 0xF

section
variable {w : Word} {u : Unmapped}

theorem decode0_error : decode0 w = .error u ↔ u = .class0 ∧ w ≠ 0x00E0 ∧ w ≠ 0x00EE := by
  unfold decode0
  split
  next hw => simp [hw]
  next hw => split <;> simp_all [eq_comm]

theorem decode8_error :
    decode8 w = .error u ↔ u = .class8 ∧ nField w ∈ [0x8#4, 0x9#4, 0xA#4, 0xB#4, 0xC#4, 0xD#4, 0xF#4] := by
  unfold decode8
  split
  case h_10 =>
    have hn := nibble_cases (nField w)
    simp_all [eq_comm]
  all_goals simp [*]

theorem decodeE_error : decodeE w = .error u ↔ u = .classE ∧ nnField w ∉ [0x9E#8, 0xA1#8] := by
  unfold decodeE
  split <;> simp_all [eq_comm]

theorem decodeF_error : decodeF w = .error u ↔
    u = .classF ∧ nnField w ∉ [0x07#8, 0x0A#8, 0x15#8, 0x18#8, 0x1E#8, 0x29#8, 0x33#8, 0x55#8, 0x65#8] := by
  unfold decodeF
  split <;> simp_all [eq_comm]

/-- A rejected word has the class digit of the name it is rejected under. -/
theorem opClass_of_decode_error (h : decode w = .error u) : opClass w = unmappedClass u := by
  obtain hc | hc | hc | hc | hc | hc | hc | hc | hc | hc | hc | hc | hc | hc | hc | hc := nibble_cases (opClass w)
  · rw [decode_class0 hc, decode0_error] at h; rw [hc, h.1]; rfl
  · rw [decode_class1 hc] at h; cases h
  · rw [decode_class2 hc] at h; cases h
  · rw [decode_class3 hc] at h; cases h
  · rw [decode_class4 hc] at h; cases h
  · rw [decode_class5 hc] at h; split at h <;> cases h; exact hc
  · rw [decode_class6 hc] at h; cases h
  · rw [decode_class7 hc] at h; cases h
  · rw [decode_class8 hc, decode8_error] at h; rw [hc, h.1]; rfl
  · rw [decode_class9 hc] at h; split at h <;> cases h; exact hc
  · rw [decode_classA hc] at h; cases h
  · rw [decode_classB hc] at h; cases h
  · rw [decode_classC hc] at h; cases h
  · rw [decode_classD hc] at h; cases h
  · rw [decode_classE hc, decodeE_error] at h; rw [hc, h.1]; rfl
  · rw [decode_classF hc, decodeF_error] at h; rw [hc, h.1]; rfl

/-- The words rejected under one name, from the decoder of that name's class. -/
theorem decode_error_iff {p : Prop} (h : opClass w = unmappedClass u → (decode w = .error u ↔ p)) :
    decode w = .error u ↔ opClass w = unmappedClass u ∧ p :=
  ⟨fun hd => ⟨opClass_of_decode_error hd, (h (opClass_of_decode_error hd)).1 hd⟩, fun ⟨hc, hp⟩ => (h hc).2 hp⟩

end

/-- Settles O6: a rejected word has its name's class, and within a class the decoder tests N, NN or the whole word. -/
theorem unmappedWordsAreExactlyTheListed : Obligations.UnmappedWordsAreExactlyTheListed := fun w =>
  ⟨decode_error_iff fun hc => by rw [decode_class0 hc, decode0_error, and_iff_right rfl],
   decode_error_iff fun hc => by rw [decode_class5 hc]; split <;> simp_all,
   decode_error_iff fun hc => by rw [decode_class9 hc]; split <;> simp_all,
   decode_error_iff fun hc => by rw [decode_class8 hc, decode8_error, and_iff_right rfl]; rfl,
   decode_error_iff fun hc => by rw [decode_classE hc, decodeE_error, and_iff_right rfl]; rfl,
   decode_error_iff fun hc => by rw [decode_classF hc, decodeF_error, and_iff_right rfl]; rfl⟩

/-- Settles O2: the words as the decoder reads them (R86, R90). -/
theorem sampleWordsDecode : Obligations.SampleWordsDecode := by
  unfold Obligations.SampleWordsDecode
  decide

end Sys2Proof.Machine
end

section
/-! PROOF. The invariant (R25, R27, R103): a step keeps it, whatever the instruction. -/

namespace Sys2Proof.Machine

/-! ### What a checked operation can answer -/

section
variable {s t u : State}

theorem raise_eq_next {f : FaultStatus} : raise f s = .next t ↔ t = { s with fault := f } := by
  rw [raise, Host.Outcome.next.injEq, eq_comm]

/-- An instruction that checks its range first does its work, or enters the fault. -/
theorem guarded_cases {c : Bool} {f : FaultStatus} (h : (if c then .next u else raise f s) = (.next t : Result)) :
    (c = true ∧ t = u) ∨ (c = false ∧ t = { s with fault := f }) := by
  cases c with
  | false => exact .inr ⟨rfl, raise_eq_next.1 h⟩
  | true => cases h; exact .inl ⟨rfl, rfl⟩

/-! ### RET, CALL and FX0A, by what they find -/

theorem execRet_of_pos (h : s.sp.val ≠ 0) : execRet s =
    .next { s with pc := s.stack[s.sp.val - 1], sp := ⟨s.sp.val - 1, by omega⟩ } := by
  simp only [execRet, State.pop_of_pos s h, State.jumpTo]

theorem execRet_of_empty (h : s.sp.val = 0) : execRet s = raise .stackUnderflow s := by
  simp only [execRet, State.pop_of_empty s h]

/-- RET pops an entry into PC, or enters the fault. -/
theorem execRet_cases (h : execRet s = .next t) :
    (s.sp.val ≠ 0 ∧ t = { s with pc := s.stack[s.sp.val - 1], sp := ⟨s.sp.val - 1, by omega⟩ }) ∨
    (s.sp.val = 0 ∧ t = { s with fault := .stackUnderflow }) := by
  by_cases hs : s.sp.val = 0
  · exact .inr ⟨hs, raise_eq_next.1 ((execRet_of_empty hs).symm.trans h)⟩
  · cases (execRet_of_pos hs).symm.trans h
    exact .inl ⟨hs, rfl⟩

theorem execCall_of_lt (nnn : BitVec 12) (h : s.sp.val < 16) : execCall nnn s = .next { s with
    pc := addrOperand nnn, stack := s.stack.set s.sp.val (s.pc + 2), sp := ⟨s.sp.val + 1, by omega⟩ } := by
  simp only [execCall, State.push_of_lt s _ h, State.jumpTo]

theorem execCall_of_full (nnn : BitVec 12) (h : s.sp.val = 16) : execCall nnn s = raise .stackOverflow s := by
  simp only [execCall, State.push_of_full s _ h]

/-- CALL pushes the return address and jumps, or enters the fault. -/
theorem execCall_cases {nnn : BitVec 12} (h : execCall nnn s = .next t) :
    (∃ hs : s.sp.val < 16, t = { s with
      pc := addrOperand nnn, stack := s.stack.set s.sp.val (s.pc + 2), sp := ⟨s.sp.val + 1, by omega⟩ }) ∨
    (s.sp.val = 16 ∧ t = { s with fault := .stackOverflow }) := by
  by_cases hs : s.sp.val = 16
  · exact .inr ⟨hs, raise_eq_next.1 ((execCall_of_full nnn hs).symm.trans h)⟩
  · cases (execCall_of_lt nnn (by omega)).symm.trans h
    exact .inl ⟨by omega, rfl⟩

theorem execLdVxK_of_some (x : RegIdx) {k : RegIdx} (h : s.firstPressed = some k) :
    execLdVxK x s = writeResult s x (BitVec.ofNat 8 k.val) := by
  simp only [execLdVxK, h, writeResult]

theorem execLdVxK_of_none (x : RegIdx) (h : s.firstPressed = none) : execLdVxK x s = .next s := by
  simp only [execLdVxK, h]

/-- FX0A writes the key it finds to V[X], or leaves the state as it was. -/
theorem execLdVxK_cases {x : RegIdx} (h : execLdVxK x s = .next t) :
    (∃ k, s.firstPressed = some k ∧ t = (s.setV x (BitVec.ofNat 8 k.val)).advance) ∨
    (s.firstPressed = none ∧ t = s) := by
  cases hk : s.firstPressed with
  | some k => cases (execLdVxK_of_some x hk).symm.trans h; exact .inl ⟨k, rfl, rfl⟩
  | none => cases (execLdVxK_of_none x hk).symm.trans h; exact .inr ⟨rfl, rfl⟩

end

/-! ### The invariant rests on memory, PC and the stack -/

section
variable {s t : State}

theorem Inv.of_stack_eq (hs : Inv s) (hm : Memory.wf t.mem = true) (hp : t.pc.toNat ≤ 0x10FE) (hk : t.stack = s.stack) :
    Inv t := by
  obtain ⟨-, -, hstack⟩ := hs
  refine ⟨hm, hp, fun k => ?_⟩
  rw [State.stackEntry, hk]
  exact hstack k

/-- Only PC of the three changes. -/
theorem Inv.of_mem_eq (hs : Inv s) (hm : t.mem = s.mem) (hp : t.pc.toNat ≤ 0x10FE) (hk : t.stack = s.stack) : Inv t :=
  hs.of_stack_eq (hm ▸ hs.1) hp hk

/-- A fault entry keeps the invariant. -/
theorem Inv.raise (hs : Inv s) (f : FaultStatus) : Inv { s with fault := f } := hs

/-- An instruction that checks its range first keeps the invariant if its work does. -/
theorem Inv.guarded {u : State} {c : Bool} {f : FaultStatus} (hs : Inv s)
    (h : (if c then .next u else Machine.raise f s) = (.next t : Result)) (hu : c = true → Inv u) : Inv t := by
  obtain ⟨hc, rfl⟩ | ⟨-, rfl⟩ := guarded_cases h
  · exact hu hc
  · exact hs

end

/-! ### PC after an instruction that was fetched -/

section
variable {s : State}

theorem advance_pc_le (hpc : s.pc.toNat + 1 ≤ 0xFFF) : (s.pc + 2).toNat ≤ 0x1000 := by
  rw [BitVec.toNat_add, show (2 : Word).toNat = 2 from rfl]
  omega

theorem skipIf_pc_le (hpc : s.pc.toNat + 1 ≤ 0xFFF) (c : Bool) : (s.skipIf c).pc.toNat ≤ 0x10FE := by
  rw [skipIf_pc_toNat]
  split <;> omega

theorem addrOperand_le (nnn : BitVec 12) : (addrOperand nnn).toNat ≤ 0x10FE := by
  have hn := nnn.isLt
  rw [addrOperand_toNat]
  omega

/-- The highest target of BNNN (R25). -/
theorem addrOperand_add_zext16_le (nnn : BitVec 12) (b : Byte) : (addrOperand nnn + zext16 b).toNat ≤ 0x10FE := by
  have hn := nnn.isLt
  have hb := b.isLt
  rw [addrOperand_add_zext16_toNat]
  omega

/-- A fetched word lies inside memory. -/
theorem pc_le_of_fetched {w : Word} (hw : fetchWord s = some w) : s.pc.toNat + 1 ≤ 0xFFF := by
  by_contra h
  rw [fetchWord_of_gt (by omega)] at hw
  cases hw

end

/-- An instruction fetched from inside memory keeps the invariant. -/
theorem Inv.exec {s t : State} (hs : Inv s) (hpc : s.pc.toNat + 1 ≤ 0xFFF) (i : Instr) (h : exec i s = .next t) :
    Inv t := by
  have ⟨hmem, _, hstack⟩ := hs
  have hpc2 : (s.pc + 2).toNat ≤ 0x10FE := (advance_pc_le hpc).trans (by decide)
  have hmove {u : State} (hm : u.mem = s.mem) (hp : u.pc = s.pc + 2) (hk : u.stack = s.stack) : Inv u :=
    hs.of_mem_eq hm (hp ▸ hpc2) hk
  cases i
  case ret =>
    obtain ⟨hsp, rfl⟩ | ⟨-, rfl⟩ := execRet_cases h
    · exact hs.of_mem_eq rfl ((hstack ⟨s.sp.val - 1, by omega⟩).trans (by decide)) rfl
    · exact hs.raise _
  case call nnn =>
    obtain ⟨hsp, rfl⟩ | ⟨-, rfl⟩ := execCall_cases h
    · refine ⟨hmem, addrOperand_le nnn, fun k => ?_⟩
      simp only [State.stackEntry, Vector.getElem_set]
      split
      · exact advance_pc_le hpc
      · exact hstack k
    · exact hs.raise _
  case jp nnn => cases h; exact hs.of_mem_eq rfl (addrOperand_le nnn) rfl
  case jpV0 nnn => cases h; exact hs.of_mem_eq rfl (addrOperand_add_zext16_le nnn _) rfl
  case seImm => cases h; exact hs.of_mem_eq rfl (skipIf_pc_le hpc _) rfl
  case sneImm => cases h; exact hs.of_mem_eq rfl (skipIf_pc_le hpc _) rfl
  case seReg => cases h; exact hs.of_mem_eq rfl (skipIf_pc_le hpc _) rfl
  case sneReg => cases h; exact hs.of_mem_eq rfl (skipIf_pc_le hpc _) rfl
  case skp => cases h; exact hs.of_mem_eq rfl (skipIf_pc_le hpc _) rfl
  case sknp => cases h; exact hs.of_mem_eq rfl (skipIf_pc_le hpc _) rfl
  case ldVxK =>
    obtain ⟨k, -, rfl⟩ | ⟨-, rfl⟩ := execLdVxK_cases h
    · exact hmove rfl rfl rfl
    · exact hs
  case draw => exact hs.guarded h fun _ => hmove rfl rfl rfl
  case loadRegs => exact hs.guarded h fun _ => hmove rfl rfl rfl
  case ldB =>
    refine hs.guarded h fun hc => hs.of_stack_eq (Memory.wf_writeBytes _ _ _ hmem ?_) hpc2 rfl
    rw [inRange_iff] at hc
    rw [length_bcdDigits]
    omega
  case storeRegs x =>
    refine hs.guarded h fun hc => hs.of_stack_eq (Memory.wf_writeBytes _ _ _ hmem ?_) hpc2 rfl
    rw [inRange_iff] at hc
    rw [State.length_regRange]
    omega
  all_goals
    cases h
    exact hmove rfl rfl rfl

/-- Settles O27: a fault entry keeps all three clauses, and a fetched word lies inside memory, where an instruction and
an unmapped word keep them. -/
theorem everyStepKeepsTheInvariant : Obligations.EveryStepKeepsTheInvariant := by
  intro s t hs h
  obtain ⟨-, he⟩ | ⟨-, -, -, he⟩ | ⟨w, i, -, hw, -, he⟩ | ⟨w, u, -, hw, -, he⟩ := step_cases s <;> rw [he] at h
  · cases h
  · cases h; exact hs.raise _
  · exact hs.exec (pc_le_of_fetched hw) i h
  · cases h; exact hs.of_mem_eq rfl ((advance_pc_le (pc_le_of_fetched hw)).trans (by decide)) rfl

end Sys2Proof.Machine
end

section
/-! PROOF. The step on the fetched word, placed and stored words, the resting state, and the canonical memory (R54, R63,
R80, R240). -/

namespace Sys2Proof.Machine

variable {s : State} {w : Word}

/-- Settles O8: the fetched word is run, which is its instruction or the no-operation. -/
theorem stepRunsTheDecodedInstruction : Obligations.StepRunsTheDecodedInstruction := fun _ _ hf hw =>
  ⟨fun _ hd => (step_of_fetched hf hw).trans (runWord_of_ok hd),
   fun _ hd => (step_of_fetched hf hw).trans (runWord_of_error hd)⟩

/-! ### A word in memory at PC -/

/-- The fetch of a word whose two bytes stand at PC, high byte first. -/
theorem fetchWord_of_bytes {hi lo : Byte} (h : s.pc.toNat + 1 ≤ 0xFFF) (hhi : readByte s.mem s.pc.toNat = hi)
    (hlo : readByte s.mem (s.pc.toNat + 1) = lo) : fetchWord s = some (wordOfBytes hi lo) := by
  rw [fetchWord_of_le h, hhi, hlo]

theorem readByte_storeWord_high (m : Memory) (a : Nat) (w : Word) : readByte (storeWord m a w) a = highByte w :=
  readByte_writeBytes_inside (us := [highByte w, lowByte w]) (a := a) (k := 0) Nat.two_pos

theorem readByte_storeWord_low (m : Memory) (a : Nat) (w : Word) : readByte (storeWord m a w) (a + 1) = lowByte w :=
  readByte_writeBytes_inside (us := [highByte w, lowByte w]) Nat.one_lt_two

theorem fetchWord_of_stored {m : Memory} (h : s.pc.toNat + 1 ≤ 0xFFF) (hm : s.mem = storeWord m s.pc.toNat w) :
    fetchWord s = some w := by
  rw [fetchWord_of_bytes h (hm ▸ readByte_storeWord_high ..) (hm ▸ readByte_storeWord_low ..), wordOfBytes_bytes]

/-- The PC that `withFetchWord` leaves can be fetched from. -/
theorem withFetchWord_pc_le (s : State) (nbits n : Nat) : (s.withFetchWord nbits n).pc.toNat + 1 ≤ 0xFFF := by
  simp only [State.withFetchWord]
  split
  next h => exact inRange_succ_iff.1 h
  next => decide

/-- Where PC can be fetched from, `withFetchWord` leaves it. -/
theorem withFetchWord_of_le (h : s.pc.toNat + 1 ≤ 0xFFF) (hf : s.fault = .none) (n : Nat) :
    s.withFetchWord 16 n = s.setMem (storeWord s.mem s.pc.toNat (BitVec.ofNat 16 (n % 2 ^ 16))) := by
  simp only [State.withFetchWord, if_pos (inRange_succ_iff.2 h), ← hf]
  rfl

theorem sameBut_setMem (s : State) (m : Memory) : SameBut [.mem] s (s.setMem m) := by
  simp [SameBut]

/-- Settles O10: the placed word stands at a PC that the fetch can use, and where PC was one it is one run of stores. -/
theorem placedWordIsTheNextExecuted : Obligations.PlacedWordIsTheNextExecuted := by
  intro s n hn
  refine ⟨step_of_fetched rfl ?_, fun h hf => ?_⟩
  · have hw := fetchWord_of_stored (withFetchWord_pc_le s 16 n) rfl
    rwa [Nat.mod_eq_of_lt (show n < 2 ^ 16 from hn)] at hw
  · rw [withFetchWord_of_le h hf]
    refine ⟨sameBut_setMem s _, fun a h0 h1 => readByte_writeBytes_outside ?_⟩
    simp only [List.length_cons, List.length_nil]
    omega

/-- Settles O11: FX55 stores V0 and V1 at I and I + 1, and the fetch at I reads them back. -/
theorem storedWordIsFetchedAtOnce : Obligations.StoredWordIsFetchedAtOnce := by
  intro x s hx h
  have stored (k : RegIdx) (hk : k ≤ x) :
      readByte (writeBytes s.mem s.i.toNat (s.regRange x)) (s.i.toNat + k.val) = s.getV k := by
    rw [readByte_writeBytes_inside (by rw [s.length_regRange]; exact Nat.lt_succ_of_le hk), s.getD_regRange x k hk]
  refine ⟨_, ite_inRange_of_le h, fetchWord_of_bytes ?_ (stored 0 (Fin.zero_le x)) (stored 1 hx)⟩
  exact (Nat.add_le_add_left hx _).trans h

/-! ### The resting state (R240) -/

/-- A jump to the address that PC holds changes nothing. -/
theorem exec_jp_self {nnn : BitVec 12} (h : nnn.toNat = s.pc.toNat) : exec (.jp nnn) s = .next s := by
  have ha : addrOperand nnn = s.pc := BitVec.eq_of_toNat_eq ((addrOperand_toNat nnn).trans h)
  show Host.Outcome.next (s.jumpTo (addrOperand nnn)) = _
  rw [ha]
  rfl

/-- Settles O12: the step at rest is a jump to itself, and a tick leaves PC, memory and FAULT. -/
theorem selfJumpRests : Obligations.SelfJumpRests := by
  rintro s ⟨hf, w, hw, hd, hpc⟩
  refine ⟨?_, _, if_pos hf, hf, w, hw, hd, hpc⟩
  rw [step_of_fetched hf hw, runWord_of_ok hd, exec_jp_self hpc]

/-! ### Canonical memory: a cell is listed exactly when its byte differs from the reset contents -/

theorem readByte_of_mem {a : Nat} {u : Byte} : ∀ {m : Memory}, m.Pairwise (fun c d => c.1 < d.1) → (a, u) ∈ m →
    readByte m a = u := by
  intro m
  induction m with
  | nil => intro _ h; cases h
  | cons c m ih =>
    intro hp h
    obtain ⟨hc, hp⟩ := List.pairwise_cons.1 hp
    obtain rfl | h := List.mem_cons.1 h
    · simp [readByte]
    · have hne : a ≠ c.1 := (hc _ h).ne'
      rw [readByte, if_neg hne, ih hp h]

theorem mem_of_readByte_ne {a : Nat} : ∀ {m : Memory}, readByte m a ≠ unlistedByte a → (a, readByte m a) ∈ m := by
  intro m
  induction m with
  | nil => intro h; exact absurd rfl h
  | cons c m ih =>
    simp only [readByte]
    split
    next hac => intro _; rw [hac]; exact List.mem_cons_self
    next => intro h; exact List.mem_cons_of_mem c (ih h)

theorem Memory.mem_iff_of_wf {m : Memory} (h : Memory.wf m = true) (a : Nat) (u : Byte) :
    (a, u) ∈ m ↔ readByte m a = u ∧ u ≠ unlistedByte a := by
  obtain ⟨hp, hc⟩ := (Memory.wf_iff m).1 h
  constructor
  · exact fun hm => ⟨readByte_of_mem hp hm, (hc _ hm).2⟩
  · rintro ⟨rfl, hu⟩
    exact mem_of_readByte_ne hu

/-- Settles O13: the bytes decide which cells are listed, and their rising addresses in which order. -/
theorem canonicalMemoryIsDeterminedByItsBytes : Obligations.CanonicalMemoryIsDeterminedByItsBytes := by
  intro m m' h h' hread
  have hirrefl : Std.Irrefl fun c d : Host.Cell => c.1 < d.1 := ⟨fun c => lt_irrefl c.1⟩
  have hantisymm : Std.Antisymm fun c d : Host.Cell => c.1 < d.1 := ⟨fun _ _ hcd hdc => absurd hcd (lt_asymm hdc)⟩
  refine List.Pairwise.eq_of_mem_iff ((Memory.wf_iff m).1 h).1 ((Memory.wf_iff m').1 h').1 fun ⟨a, u⟩ => ?_
  rw [Memory.mem_iff_of_wf h, Memory.mem_iff_of_wf h', hread]

end Sys2Proof.Machine
end

section
/-! PROOF. Faults (R200 to R208): what raises one, that it changes nothing but FAULT, and what leaves it. -/

namespace Sys2Proof.Machine

/-- Settles O29: each instruction does its work or enters the fault. -/
theorem everyInstructionAnswersANextState : Obligations.EveryInstructionAnswersANextState := by
  intro i s
  obtain ⟨t, ht, -⟩ := exec_cases i s
  exact ⟨t, ht⟩

section
variable {s t : State}

/-- An instruction that changes FAULT changes nothing else (R203). -/
theorem exec_precise {i : Instr} (h : exec i s = .next t) (hf : t.fault ≠ s.fault) :
    t = { s with fault := t.fault } := by
  obtain ⟨u, hu, ⟨-, hkeep⟩ | ⟨-, hraise⟩⟩ := exec_cases i s <;> cases h.symm.trans hu
  · exact absurd hkeep hf
  · rw [hraise]

/-- A step that changes FAULT changes nothing else (R203). -/
theorem step_precise (h : step s = .next t) (hf : t.fault ≠ s.fault) : t = { s with fault := t.fault } := by
  obtain ⟨-, he⟩ | ⟨-, -, -, he⟩ | ⟨w, i, -, -, -, he⟩ | ⟨w, u, -, -, -, he⟩ := step_cases s <;> rw [he] at h
  · cases h
  · cases h; rfl
  · exact exec_precise h hf
  · cases h; exact absurd rfl hf

/-! ### The fault table, by what the fetch and the decoder answer (R207) -/

theorem stepFault_of_gt (h : 0xFFF < s.pc.toNat + 1) : stepFault s = .addressFault := if_pos h

theorem stepFault_of_ok {w : Word} {i : Instr} (hw : fetchWord s = some w) (hd : decode w = .ok i) :
    stepFault s = executeFault i s := by
  have h := pc_le_of_fetched hw
  rw [fetchWord_of_le h, Option.some.injEq] at hw
  simp only [stepFault, if_neg (Nat.not_lt.2 h), hw, hd]

theorem stepFault_of_error {w : Word} {u : Unmapped} (hw : fetchWord s = some w) (hd : decode w = .error u) :
    stepFault s = .none := by
  have h := pc_le_of_fetched hw
  rw [fetchWord_of_le h, Option.some.injEq] at hw
  simp only [stepFault, if_neg (Nat.not_lt.2 h), hw, hd]

end

/-- Settles O14, for an instruction and for a step. -/
theorem faultEntryIsPrecise : Obligations.FaultEntryIsPrecise :=
  ⟨fun _ _ _ => exec_precise, fun _ _ => step_precise⟩

/-- Settles O15: past the end of memory it is the fetch's fault, and else the instruction's own check or none. -/
theorem stepRaisesTheFaultOfTheTable : Obligations.StepRaisesTheFaultOfTheTable := by
  intro s hf
  obtain ⟨hn, -⟩ | ⟨-, hpc, -, he⟩ | ⟨w, i, -, hw, hd, he⟩ | ⟨w, u, -, hw, hd, he⟩ := step_cases s
  · exact absurd hf hn
  · rw [stepFault_of_gt hpc]
    exact ⟨_, he, rfl, fun _ => rfl⟩
  · rw [stepFault_of_ok hw hd]
    obtain ⟨t, ht, ⟨hnone, hkeep⟩ | ⟨-, hraise⟩⟩ := exec_cases i s
    · exact ⟨t, he.trans ht, by rw [hkeep, hf, hnone], fun h => absurd hnone h⟩
    · exact ⟨t, he.trans ht, by rw [hraise], fun _ => hraise⟩
  · rw [stepFault_of_error hw hd]
    exact ⟨_, he, hf, fun h => absurd rfl h⟩

/-! ### After a fault (R208) -/

section
variable (p : Session)

/-- An event that answers a fault leaves the session as it was. -/
theorem Session.after_of_fault {e : Event} {f : Fault} (h : p.issue e = .fault f) : p.after e = p := by
  rw [Session.after, h]

/-- `key_set` writes KEY alone, or is refused and leaves the session. -/
theorem Session.after_keySet_cases (k : Nat) (b : Bool) :
    p.after (.keySet k b) = p ∨ p.after (.keySet k b) = ⟨keySet k b p.machine, p.booting⟩ := by
  simp only [Session.after, Session.issue]
  cases WellFormed.keyIndex k with
  | false => exact .inl rfl
  | true => exact .inr rfl

variable {p}

theorem step_of_faulted {s : State} (h : s.fault ≠ .none) : step s = .fault (.stopped s.fault) := if_neg h

theorem tick_of_faulted {s : State} (h : s.fault ≠ .none) : tick s = .fault (.stopped s.fault) := if_neg h

theorem Session.issue_step_of_faulted (h : p.machine.fault ≠ .none) :
    p.issue .step = .fault (.stopped p.machine.fault) := by
  simp only [Session.issue, step_of_faulted h, silently]

theorem Session.issue_tick_of_faulted (h : p.machine.fault ≠ .none) :
    p.issue .tick = .fault (.stopped p.machine.fault) := by
  simp only [Session.issue, tick_of_faulted h, silently]

/-- After a fault no event but `reset` changes FAULT. -/
theorem Session.after_fault (h : p.machine.fault ≠ .none) {e : Event} (he : ∀ font, e ≠ .reset font) :
    (p.after e).machine.fault = p.machine.fault := by
  cases e with
  | reset font => exact absurd rfl (he font)
  | loadProgram bytes => obtain hp | hp := p.after_loadProgram_cases bytes <;> rw [hp]; rfl
  | step => rw [Session.after_of_fault p (Session.issue_step_of_faulted h)]
  | tick => rw [Session.after_of_fault p (Session.issue_tick_of_faulted h)]
  | keySet k b => obtain hp | hp := p.after_keySet_cases k b <;> rw [hp]; rfl

/-- After a fault no event pulses the tone. -/
theorem Session.toneOf_of_faulted (h : p.machine.fault ≠ .none) (e : Event) : p.toneOf e = false := by
  by_cases he : e = .tick
  · rw [he, Session.toneOf_tick_faulted p h]
  · exact Session.toneOf_of_ne_tick p he

end

/-- Settles O16: a step and a tick are not enabled, the other events leave FAULT alone, and `reset` clears it. -/
theorem onlyResetLeavesAFault : Obligations.OnlyResetLeavesAFault := fun p h =>
  ⟨step_of_faulted h, Session.issue_step_of_faulted h, Session.issue_tick_of_faulted h,
   Session.after_of_fault p (Session.issue_step_of_faulted h),
   Session.after_of_fault p (Session.issue_tick_of_faulted h),
   fun e he => ⟨Session.after_fault h he, Session.toneOf_of_faulted h e⟩,
   fun font hfont => by rw [Session.after_reset font p hfont]; rfl⟩

end Sys2Proof.Machine
end

section
/-! PROOF. Reset and the host's events (R34, R205, R211, R217, R230 to R239): what each accepted event leaves, runs of
ticks, and the invariant along every run of events. -/

namespace Sys2Proof.Machine

/-! ### The reset state -/

section
variable {font : List Byte} {draws : Nat}

theorem resetWith_getV (j : RegIdx) : (resetWith font draws).getV j = 0 := Vector.getElem_replicate ..

theorem resetWith_stackEntry (k : Fin 16) : (resetWith font draws).stackEntry k = 0 := Vector.getElem_replicate ..

theorem resetWith_pixel (q : Nat) : (resetWith font draws).pixel q = false := pixelAt_blankScreen ..

theorem readByte_resetWith_font {a : Nat} (h : a < font.length) :
    readByte (resetWith font draws).mem a = font.getD a 0 := by
  have hread := readByte_writeBytes_inside (m := []) (a := 0) h
  rwa [Nat.zero_add] at hread

theorem readByte_resetWith_above {a : Nat} (hf : font.length = 80) (h : 80 ≤ a) :
    readByte (resetWith font draws).mem a = 0 :=
  (readByte_writeBytes_outside (m := []) (.inr (by omega))).trans (unlistedByte_of_le a h)

theorem Session.issue_reset (p : Session) (h : font.length = 80) :
    p.issue (.reset font) = .next ⟨⟨resetWith font p.machine.draws, true⟩, false⟩ :=
  if_pos (decide_eq_true h)

theorem Session.issue_reset_of_not_font (p : Session) (h : font.length ≠ 80) :
    p.issue (.reset font) = .refused .notAFont :=
  if_neg (decide_eq_true_iff.not.2 h)

end

/-- Settles O17: every piece of state has its reset value, and MEM the FONT over bytes that reset to 0 (R34). -/
theorem resetLeavesTheTable : Obligations.ResetLeavesTheTable := fun p _ h =>
  ⟨_, p.issue_reset h, resetWith_getV, rfl, rfl, rfl, resetWith_stackEntry, rfl, rfl, resetWith_pixel,
   fun _ => BitVec.getLsbD_zero, fun _ ha => readByte_resetWith_font (h ▸ ha), fun _ => readByte_resetWith_above h,
   rfl, rfl⟩

/-- Storing the default FONT over the reset contents lists no cell. -/
theorem writeBytes_defaultFont : writeBytes [] 0 defaultFont = [] := by decide

/-- Settles O18: the default FONT leaves nothing listed, and the word at 0x200 is the unmapped 0x0000. -/
theorem resetStateIsTheDefaultReset : Obligations.ResetStateIsTheDefaultReset := by
  refine ⟨?_, rfl, rfl⟩
  rw [resetWith, show State.reset.mem = [] from rfl, writeBytes_defaultFont]
  rfl

/-! ### `load_program` -/

section
variable (p : Session) {bytes : List Byte}

theorem image_iff : WellFormed.image bytes = true ↔ bytes.length ≤ 3583 := decide_eq_true_iff

theorem Session.issue_loadProgram_of_le (hb : p.booting = true) (h : bytes.length ≤ 3583) :
    p.issue (.loadProgram bytes) = .next ⟨⟨p.machine.setMem (writeBytes p.machine.mem 0x200 bytes), true⟩, false⟩ := by
  simp only [Session.issue, if_pos hb, loadProgram, if_pos (image_iff.2 h), silently]

theorem Session.issue_loadProgram_of_gt (hb : p.booting = true) (h : bytes.length > 3583) :
    p.issue (.loadProgram bytes) = .refused .loadError := by
  have himage := image_iff.not.2 (Nat.not_le.2 h)
  simp only [Session.issue, if_pos hb, loadProgram, if_neg himage, silently]

theorem Session.issue_loadProgram_of_not_booting (hb : p.booting = false) :
    p.issue (.loadProgram bytes) = .refused .loadOutsideBoot := by
  simp only [Session.issue, hb, Bool.false_eq_true, if_false]

/-- A refused event leaves the session as it was. -/
theorem Session.after_of_refused {e : Event} {r : Refusal} (h : p.issue e = .refused r) : p.after e = p := by
  rw [Session.after, h]

/-- An image over the bound is never loaded. -/
theorem Session.after_loadProgram_of_gt (h : bytes.length > 3583) : p.after (.loadProgram bytes) = p := by
  cases hb : p.booting with
  | true => exact p.after_of_refused (p.issue_loadProgram_of_gt hb h)
  | false => exact p.after_of_refused (p.issue_loadProgram_of_not_booting hb)

end

/-- Settles O19: within the bound the image is one run of stores at 0x200, and else the event is refused. -/
theorem loadProgramCopiesTheImage : Obligations.LoadProgramCopiesTheImage := fun p _ =>
  ⟨fun hb h => ⟨_, p.issue_loadProgram_of_le hb h, sameBut_setMem p.machine _,
     fun _ hk => readByte_writeBytes_inside hk, fun _ ha => readByte_writeBytes_outside ha⟩,
   fun hb h => ⟨p.issue_loadProgram_of_gt hb h, p.after_loadProgram_of_gt h⟩,
   p.issue_loadProgram_of_not_booting⟩

/-! ### `key_set` -/

theorem sameBut_keySet (k : Nat) (b : Bool) (s : State) : SameBut [.key] s (keySet k b s) := by
  simp [SameBut, keySet, State.getV, State.stackEntry, State.pixel]

/-- Settles O20: the flag of key `k` is the one bit that changes, and no key has an index of 16 or more. -/
theorem keySetWritesOneFlag : Obligations.KeySetWritesOneFlag := by
  refine fun p k pressed hk => ⟨_, if_pos (decide_eq_true hk), sameBut_keySet k pressed p.machine, fun j => ?_⟩
  by_cases hj : j < 16
  · exact keySet_getLsbD k pressed p.machine j hj
  · rw [if_neg (by omega), BitVec.getLsbD_of_ge _ j (by omega), BitVec.getLsbD_of_ge _ j (by omega)]

/-! ### `tick` -/

section
variable {p : Session}

theorem sameBut_timers (s : State) (d e : Byte) : SameBut [.dt, .st] s { s with dt := d, st := e } := by
  simp [SameBut, State.getV, State.stackEntry, State.pixel]

theorem tick_of_running {s : State} (h : s.fault = .none) :
    tick s = .next { s with dt := countDown s.dt, st := countDown s.st } := if_pos h

theorem Session.issue_tick (h : p.machine.fault = .none) : p.issue .tick = .next ⟨⟨{ p.machine with
    dt := countDown p.machine.dt, st := countDown p.machine.st }, p.booting⟩, decide (p.machine.st.toNat = 1)⟩ := by
  have hst : p.machine.st = 1 ↔ p.machine.st.toNat = 1 := BitVec.toNat_inj.symm
  simp only [Session.issue, tick_of_running h, silently, tickTone, h, decide_true, Bool.true_and, hst]

/-- One less above 0, and 0 at 0. -/
theorem countDown_toNat_ite (b : Byte) : (countDown b).toNat = if b.toNat > 0 then b.toNat - 1 else b.toNat := by
  rw [countDown_toNat]
  split <;> omega

theorem countDown_iterate_toNat (n : Nat) (b : Byte) : (countDown^[n] b).toNat = b.toNat - n := by
  induction n generalizing b with
  | zero => rfl
  | succ n ih => rw [Function.iterate_succ_apply, ih, countDown_toNat]; omega

theorem Session.after_tick_fault (h : p.machine.fault = .none) : (p.after .tick).machine.fault = .none := by
  rw [Session.after_tick p h]
  exact h

/-- A run of ticks counts each timer down on its own. -/
theorem Session.run_ticks (n : Nat) (h : p.machine.fault = .none) : Session.run (List.replicate n .tick) p =
    ⟨{ p.machine with dt := countDown^[n] p.machine.dt, st := countDown^[n] p.machine.st }, p.booting⟩ := by
  induction n generalizing p with
  | zero => rfl
  | succ n ih =>
    rw [List.replicate_succ, Session.run, ih (Session.after_tick_fault h), Session.after_tick p h]
    rfl

end

/-- Settles O22: the state after the tick has both timers counted down, and the tone is the test of ST. -/
theorem tickCountsBothTimersDown : Obligations.TickCountsBothTimersDown := fun p =>
  ⟨fun h => ⟨_, Session.issue_tick h, tick_of_running h, sameBut_timers p.machine _ _, countDown_toNat_ite p.machine.dt,
     countDown_toNat_ite p.machine.st⟩,
   Session.issue_tick_of_faulted⟩

/-- Settles O23: a run of ticks is the count-down iterated. -/
theorem timersReachZeroAndStay : Obligations.TimersReachZeroAndStay := by
  intro n p h
  rw [Session.run_ticks n h]
  exact ⟨countDown_iterate_toNat n _, countDown_iterate_toNat n _, sameBut_timers p.machine _ _⟩

/-- Settles O25, by induction on the ticks: the first one pulses when ST is 1, and the rest start from ST one less. -/
theorem toneOncePerExpiry : Obligations.ToneOncePerExpiry := by
  intro n
  induction n with
  | zero => intro p _; exact (if_neg (by omega)).symm
  | succ n ih =>
    intro p h
    have hst : p.machine.st = 1 ↔ p.machine.st.toNat = 1 := BitVec.toNat_inj.symm
    have hrest := ih (p.after .tick) (Session.after_tick_fault h)
    rw [Session.after_tick p h, countDown_toNat] at hrest
    rw [List.replicate_succ, Session.pulses, Session.toneOf_tick p h, Session.after_tick p h, hrest]
    simp only [decide_eq_true_eq, hst]
    split_ifs <;> omega

/-! ### The invariant along a run of events -/

theorem inv_resetWith {font : List Byte} (draws : Nat) (h : font.length = 80) : Inv (resetWith font draws) := by
  have hpc : (0x0200 : Word).toNat ≤ 0x10FE := by decide
  refine ⟨Memory.wf_writeBytes font _ 0 Memory.wf_reset (by omega), hpc, fun k => ?_⟩
  rw [resetWith_stackEntry]
  decide

/-- Settles O26: `State.reset` is a reset under the default FONT. -/
theorem invariantHoldsAtReset : Obligations.InvariantHoldsAtReset := by
  obtain ⟨hreset, hfont, -⟩ := resetStateIsTheDefaultReset
  exact ⟨hreset ▸ inv_resetWith 0 hfont, fun _ draws => inv_resetWith draws⟩

/-- Every event keeps the invariant: a reset sets it up, a load stores inside memory, a step keeps it, and a tick and a
key event leave memory, PC and the stack. -/
theorem Session.inv_after (e : Event) {p : Session} (h : Inv p.machine) : Inv (p.after e).machine := by
  cases e with
  | reset font =>
    by_cases hf : font.length = 80
    · rw [Session.after_reset font p hf]
      exact inv_resetWith _ hf
    · rw [p.after_of_refused (p.issue_reset_of_not_font hf)]
      exact h
  | loadProgram bytes =>
    by_cases hl : bytes.length ≤ 3583
    · obtain hp | hp := p.after_loadProgram_cases bytes <;> rw [hp]
      · exact h
      · exact h.of_stack_eq (Memory.wf_writeBytes _ _ _ h.1 (by omega)) h.2.1 rfl
    · rw [p.after_loadProgram_of_gt (Nat.not_le.1 hl)]
      exact h
  | step =>
    obtain hp | ⟨t, ht, hp⟩ := p.after_step_cases <;> rw [hp]
    · exact h
    · exact everyStepKeepsTheInvariant _ t h ht
  | tick =>
    by_cases hf : p.machine.fault = .none
    · rw [Session.after_tick p hf]
      exact h
    · rw [Session.after_tick_faulted p hf]
      exact h
  | keySet k b =>
    obtain hp | hp := p.after_keySet_cases k b <;> rw [hp] <;> exact h

/-- Settles O28, by induction on the events. -/
theorem everyRunKeepsTheInvariant : Obligations.EveryRunKeepsTheInvariant := by
  intro es
  induction es with
  | nil => exact fun _ h => h
  | cons e es ih => exact fun p h => ih (p.after e) (Session.inv_after e h)

end Sys2Proof.Machine
end

section
/-! PROOF. CALL and RET, the draw of a byte, ADD I, and the keys (R101, R103, R132, R142, R184 to R187). -/

namespace Sys2Proof.Machine

variable {s : State}

/-! ### The call stack (R27) -/

theorem sameBut_return (s : State) (n : Fin 17) (a : Word) : SameBut [.sp, .pc] s { s with pc := a, sp := n } := by
  simp [SameBut, State.getV, State.stackEntry, State.pixel]

theorem sameBut_call (s : State) (v : Vector Word 16) (n : Fin 17) (a : Word) :
    SameBut [.sp, .pc, .stack] s { s with pc := a, stack := v, sp := n } := by
  simp [SameBut, State.getV, State.pixel]

/-- The entries after a push, by their numbers. -/
theorem stackEntry_push {n : Nat} (hn : n < 16) (a : Word) (t : State) (ht : t.stack = s.stack.set n a) (k : Fin 16) :
    t.stackEntry k = if k.val = n then a else s.stackEntry k := by
  simp only [State.stackEntry, ht, Vector.getElem_set, eq_comm]

/-- Settles O34: the row is one word, and with an entry in use RET takes the one below SP (R101). -/
theorem returnPopsTheStack : Obligations.ReturnPopsTheStack := by
  refine ⟨encodedAs_of_word rfl, fun s => ⟨fun h => ?_, execRet_of_empty⟩⟩
  refine ⟨_, execRet_of_pos h, rfl, fun k hk => ?_, sameBut_return s _ _⟩
  simp only [State.stackEntry, hk]

/-- Settles O36: the row decodes by its class, and with room CALL writes the entry at SP (R103). -/
theorem callPushesTheReturnAddress : Obligations.CallPushesTheReturnAddress := by
  refine ⟨encodedAs_of_class fun _ => decode_class2, fun nnn s => ⟨fun h => ?_, execCall_of_full nnn⟩⟩
  exact ⟨_, execCall_of_lt nnn h, rfl, addrOperand_toNat nnn, stackEntry_push h _ _ rfl, sameBut_call s _ _ _⟩

/-- Settles O37: RET takes the entry below SP, which is the one CALL wrote (S5). -/
theorem callThenReturnComesBack : Obligations.CallThenReturnComesBack := by
  intro nnn s h
  obtain ⟨t, ht, hsp, -, hstack, -⟩ := (callPushesTheReturnAddress.2 nnn s).1 h
  refine ⟨t, ht, fun t' hsp' hstack' => ?_⟩
  have hpos : t'.sp.val = s.sp.val + 1 := hsp' ▸ hsp
  obtain ⟨u, hu, husp, hupc, hframe⟩ := (returnPopsTheStack.2 t').1 (by omega)
  refine ⟨u, hu, ?_, Fin.ext (by omega), ?_⟩
  · rw [hupc ⟨s.sp.val, h⟩ (by simp only; omega), hstack', hstack]
    exact if_pos rfl
  · simpa [SameBut] using hframe

/-! ### The drawn byte (R132) -/

/-- CXNN at a given draw: the masked byte goes to V[X], and the source goes on. -/
theorem execRndWith_spec (r : Byte) (x : RegIdx) (nn : Byte) (s : State) : ∃ t, execRndWith r x nn s = .next t ∧
    t.getV x = r &&& nn ∧ (∀ j, j ≠ x → t.getV j = s.getV j) ∧ t.pc = s.pc + 2 ∧ t.draws = s.draws + 1 ∧
    SameBut [.v, .pc, .draws] s t :=
  ⟨_, rfl, by simp, fun j hj => by simp [hj], rfl, rfl, by simp [SameBut]⟩

/-- Settles O45: the row decodes by its class, and the result is the draw under the mask, whatever the draw. -/
theorem randomByteIsMasked : Obligations.RandomByteIsMasked := by
  refine ⟨encodedAs_of_class fun _ => decode_classC, fun x nn s => ⟨?_, fun r => ?_⟩⟩
  · obtain ⟨t, ht, hx, hrest⟩ := execRndWith_spec (Config.rand8 s.draws) x nn s
    refine ⟨t, ht, rfl, ?_, ?_, hrest⟩
    · rw [hx, BitVec.toNat_and]
      exact Nat.and_le_right
    · rw [hx, BitVec.and_assoc, BitVec.and_not_self]
      exact BitVec.and_zero
  · obtain ⟨t, ht, hx, hv, hpc, -, hframe⟩ := execRndWith_spec r x nn s
    exact ⟨t, ht, fun b => hx ▸ BitVec.getLsbD_and, hv, hpc, hframe⟩

/-- Settles O47: the row decodes by class and NN, and the sum wraps at the 16 bits of I (R142). -/
theorem addToIndexWrapsAtSixteenBits : Obligations.AddToIndexWrapsAtSixteenBits := by
  refine ⟨encodedAs_of_classF rfl decodeF_nn1E, fun x s => ⟨_, rfl, ?_, rfl, sameBut_setI_advance s _⟩⟩
  exact (BitVec.toNat_add ..).trans (by rw [zext16_toNat])

/-! ### The key tests (R184, R185, R187) -/

theorem keyDown_of_le {k : Byte} (h : k.toNat ≤ 0xF) : s.keyDown k = s.key.getLsbD k.toNat := by
  simp only [State.keyDown, h, decide_true, Bool.true_and]

theorem keyDown_of_gt {k : Byte} (h : k.toNat > 0xF) : s.keyDown k = false := by
  simp only [State.keyDown, Nat.not_le.2 h, decide_false, Bool.false_and]

/-- PC after EX9E and EXA1, which skip on opposite conditions. -/
theorem key_skips_pc {c d : Bool} (h : c = d) :
    (s.skipIf c).pc = (if d then s.pc + 4 else s.pc + 2) ∧ (s.skipIf !c).pc = (if d then s.pc + 2 else s.pc + 4) := by
  subst h
  cases c <;> exact ⟨rfl, rfl⟩

/-- Settles O56: the rows decode by class and NN, and the one condition is the key flag, or false above 0xF. -/
theorem keySkips : Obligations.KeySkips := by
  refine ⟨encodedAs_of_classE rfl decodeE_nn9E, encodedAs_of_classE rfl decodeE_nnA1, fun x s => ?_⟩
  refine ⟨_, _, rfl, rfl, sameBut_skipIf s _, sameBut_skipIf s _, fun h hk => ?_, fun h hk => ?_, fun h => ?_⟩
  · exact key_skips_pc ((keyDown_of_le h).trans hk)
  · exact key_skips_pc ((keyDown_of_le h).trans hk)
  · exact key_skips_pc (keyDown_of_gt h)

/-! ### The key wait (R186) -/

/-- Settles O57: the row decodes by class and NN, and the search in rising order finds the least key down, or none. -/
theorem keyWaitTakesTheLowestKey : Obligations.KeyWaitTakesTheLowestKey := by
  refine ⟨encodedAs_of_classF rfl decodeF_nn0A, fun x s => ⟨fun h => ?_, fun k hk hdown hlow => ?_⟩⟩
  · exact execLdVxK_of_none x (s.firstPressed_eq_none.2 fun k => h k k.isLt)
  · have hfirst : s.firstPressed = some ⟨k, hk⟩ := (s.firstPressed_eq_some _).2 ⟨hdown, fun j hj => hlow j hj⟩
    obtain ⟨t, ht, hx, hrest⟩ := writeResult_spec_of_ne s x (BitVec.ofNat 8 k)
    refine ⟨t, (execLdVxK_of_some x hfirst).trans ht, ?_, hrest⟩
    rw [hx, BitVec.toNat_ofNat]
    omega

end Sys2Proof.Machine
end

section
/-! PROOF. The access matrix (R35): which pieces of state and which registers an instruction may change, and the flag rule
(R22). -/

namespace Sys2Proof.Machine

/-! ### Frames -/

section
variable {l m : List Part} {s t u : State}

theorem SameBut.mono (h : SameBut l s t) (hl : ∀ q ∈ l, q ∈ m) : SameBut m s t := by
  obtain ⟨hv, hi, hpc, hstack, hsp, hdt, hst, hfb, hkey, hmem, hfault, hdraws⟩ := h
  exact ⟨fun hn => hv (mt (hl _) hn), fun hn => hi (mt (hl _) hn), fun hn => hpc (mt (hl _) hn),
    fun hn => hstack (mt (hl _) hn), fun hn => hsp (mt (hl _) hn), fun hn => hdt (mt (hl _) hn),
    fun hn => hst (mt (hl _) hn), fun hn => hfb (mt (hl _) hn), fun hn => hkey (mt (hl _) hn),
    fun hn => hmem (mt (hl _) hn), fun hn => hfault (mt (hl _) hn), fun hn => hdraws (mt (hl _) hn)⟩

theorem SameBut.refl (l : List Part) (s : State) : SameBut l s s := by
  simp [SameBut]

/-- A fault entry changes FAULT alone. -/
theorem sameBut_raise (l : List Part) (s : State) (f : FaultStatus) : SameBut (.fault :: l) s { s with fault := f } := by
  simp [SameBut, State.getV, State.stackEntry, State.pixel]

/-- A checked instruction changes what its work changes, or FAULT. -/
theorem guarded_sameBut {c : Bool} {f : FaultStatus} (h : (if c then .next u else raise f s) = (.next t : Result))
    (hu : SameBut l s u) : SameBut (.fault :: l) s t := by
  obtain ⟨-, rfl⟩ | ⟨-, rfl⟩ := guarded_cases h
  · exact hu.mono fun _ => List.mem_cons_of_mem _
  · exact sameBut_raise l s f

theorem sameBut_setV_advance (s : State) (x : RegIdx) (b : Byte) : SameBut [.v, .pc] s (s.setV x b).advance := by
  simp [SameBut]

theorem sameBut_setV_setFlag_advance (s : State) (x : RegIdx) (b : Byte) (f : Bool) :
    SameBut [.v, .pc] s ((s.setV x b).setFlag f).advance := by
  simp [SameBut]

end

/-! ### The pieces of state an instruction may change -/

/-- The "written by" column of R35, read by instruction, with FAULT where the instruction has a check. -/
def writtenParts : Instr → List Part
  | .cls => [.fb, .pc]
  | .ret => [.fault, .sp, .pc]
  | .call _ => [.fault, .sp, .pc, .stack]
  | .jp _ | .jpV0 _ | .seImm _ _ | .sneImm _ _ | .seReg _ _ | .sneReg _ _ | .skp _ | .sknp _ => [.pc]
  | .ldImm _ _ | .addImm _ _ | .ldReg _ _ | .orReg _ _ | .andReg _ _ | .xorReg _ _ | .addReg _ _ => [.v, .pc]
  | .subReg _ _ | .shr _ _ | .subnReg _ _ | .shl _ _ | .ldVxDT _ | .ldVxK _ => [.v, .pc]
  | .ldI _ | .addI _ | .ldF _ => [.i, .pc]
  | .rnd _ _ => [.v, .pc, .draws]
  | .draw _ _ _ => [.fault, .fb, .v, .pc]
  | .ldDTVx _ => [.dt, .pc]
  | .ldSTVx _ => [.st, .pc]
  | .ldB _ => [.fault, .mem, .pc]
  | .storeRegs _ => [.fault, .mem, .i, .pc]
  | .loadRegs _ => [.fault, .v, .i, .pc]

/-- An instruction changes no other piece of state. -/
theorem exec_sameBut {i : Instr} {s t : State} (h : exec i s = .next t) : SameBut (writtenParts i) s t := by
  cases i
  case cls => cases h; exact sameBut_setFB_advance s _
  case ret =>
    obtain ⟨-, rfl⟩ | ⟨-, rfl⟩ := execRet_cases h
    · exact (sameBut_return s _ _).mono fun _ => List.mem_cons_of_mem _
    · exact sameBut_raise _ s _
  case call =>
    obtain ⟨-, rfl⟩ | ⟨-, rfl⟩ := execCall_cases h
    · exact (sameBut_call s _ _ _).mono fun _ => List.mem_cons_of_mem _
    · exact sameBut_raise _ s _
  case jp | jpV0 => cases h; exact sameBut_jumpTo s _
  case seImm | sneImm | seReg | sneReg | skp | sknp => cases h; exact sameBut_skipIf s _
  case ldImm | addImm | ldReg | orReg | andReg | xorReg | ldVxDT => cases h; exact sameBut_setV_advance s _ _
  case addReg | subReg | shr | subnReg | shl => cases h; exact sameBut_setV_setFlag_advance s _ _ _
  case ldVxK =>
    obtain ⟨k, -, rfl⟩ | ⟨-, rfl⟩ := execLdVxK_cases h
    · exact sameBut_setV_advance s _ _
    · exact SameBut.refl _ _
  case ldI | addI | ldF => cases h; exact sameBut_setI_advance s _
  case rnd => cases h; simp [SameBut, writtenParts]
  case ldDTVx => cases h; exact sameBut_setDT_advance s _
  case ldSTVx => cases h; exact sameBut_setST_advance s _
  case draw => exact guarded_sameBut h (by simp [SameBut])
  case ldB => exact guarded_sameBut h (by simp [SameBut])
  case storeRegs => exact guarded_sameBut h (by simp [SameBut])
  case loadRegs => exact guarded_sameBut h (by simp [SameBut])

/-- An instruction changes no register but those it writes. -/
theorem exec_getV {i : Instr} {s t : State} (h : exec i s = .next t) {j : RegIdx} (hj : writesReg i j = false) :
    t.getV j = s.getV j := by
  cases i
  case ldImm | addImm | ldReg | orReg | andReg | xorReg | rnd | ldVxDT =>
    cases h
    exact (State.setV_getV ..).trans (if_neg (ne_of_beq_false hj))
  case addReg | subReg | shr | subnReg | shl =>
    obtain ⟨hx, hf⟩ := Bool.or_eq_false_iff.1 hj
    cases h
    exact ((State.setFlag_getV ..).trans (if_neg (ne_of_beq_false hf))).trans
      ((State.setV_getV ..).trans (if_neg (ne_of_beq_false hx)))
  case ldVxK =>
    obtain ⟨k, -, rfl⟩ | ⟨-, rfl⟩ := execLdVxK_cases h
    · exact (State.setV_getV ..).trans (if_neg (ne_of_beq_false hj))
    · rfl
  case draw =>
    obtain ⟨-, rfl⟩ | ⟨-, rfl⟩ := guarded_cases h
    · exact (State.setFlag_getV ..).trans (if_neg (ne_of_beq_false hj))
    · rfl
  case loadRegs x =>
    obtain ⟨-, rfl⟩ | ⟨-, rfl⟩ := guarded_cases h
    · exact (setRegs_readBytes_getV s x _ j).trans (if_neg (of_decide_eq_false hj))
    · rfl
  all_goals exact (exec_sameBut h).1 (by simp [writtenParts]) j

/-! ### The writers of each piece of state (R35) -/

section
variable {i : Instr}

theorem writes_i (h : .i ∈ writtenParts i) :
    (∃ a, i = .ldI a) ∨ ∃ x, i = .addI x ∨ i = .ldF x ∨ i = .storeRegs x ∨ i = .loadRegs x := by
  cases i <;> simp [writtenParts] at h ⊢

theorem writes_stack (h : .stack ∈ writtenParts i) : ∃ a, i = .call a := by
  cases i <;> simp [writtenParts] at h ⊢

theorem writes_sp (h : .sp ∈ writtenParts i) : i = .ret ∨ ∃ a, i = .call a := by
  cases i <;> simp [writtenParts] at h ⊢

theorem writes_dt (h : .dt ∈ writtenParts i) : ∃ x, i = .ldDTVx x := by
  cases i <;> simp [writtenParts] at h ⊢

theorem writes_st (h : .st ∈ writtenParts i) : ∃ x, i = .ldSTVx x := by
  cases i <;> simp [writtenParts] at h ⊢

theorem writes_fb (h : .fb ∈ writtenParts i) : i = .cls ∨ ∃ x y n, i = .draw x y n := by
  cases i <;> simp [writtenParts] at h ⊢

theorem writes_mem (h : .mem ∈ writtenParts i) : ∃ x, i = .ldB x ∨ i = .storeRegs x := by
  cases i <;> simp [writtenParts] at h ⊢

theorem writes_draws (h : .draws ∈ writtenParts i) : ∃ x nn, i = .rnd x nn := by
  cases i <;> simp [writtenParts] at h ⊢

end

/-- Settles O30: a piece of state that changed is one the instruction writes. -/
theorem accessMatrixOfWrites : Obligations.AccessMatrixOfWrites := by
  intro i s t h
  obtain ⟨-, hi, -, hstack, hsp, hdt, hst, hfb, -, hmem, -, hdraws⟩ := exec_sameBut h
  refine ⟨fun j hj => ?_, fun hn => writes_i ?_, fun ⟨k, hn⟩ => writes_stack ?_, fun hn => writes_sp ?_,
    fun hn => writes_dt ?_, fun hn => writes_st ?_, fun ⟨q, hn⟩ => writes_fb ?_, fun ⟨a, hn⟩ => writes_mem ?_,
    exec_key i h, fun hn => writes_draws ?_⟩
  · exact Bool.eq_true_of_not_eq_false (mt (exec_getV h) hj)
  · exact not_imp_comm.1 hi hn
  · exact not_imp_comm.1 hstack fun hk => hn (hk k)
  · exact not_imp_comm.1 hsp hn
  · exact not_imp_comm.1 hdt hn
  · exact not_imp_comm.1 hst hn
  · exact not_imp_comm.1 hfb fun hq => hn (hq q)
  · exact not_imp_comm.1 hmem fun ha => hn (ha a)
  · exact not_imp_comm.1 hdraws hn

/-! ### The flag (R22) -/

theorem setFlag_getV_VF (s : State) (f : Bool) : (s.setFlag f).getV VF = 0x00 ∨ (s.setFlag f).getV VF = 0x01 := by
  rw [State.setFlag_getV]
  cases f
  · exact .inl rfl
  · exact .inr rfl

/-- The instructions that can write VF: the six flag writers, and those whose X field is 0xF. -/
theorem writesReg_VF {i : Instr} (h : writesReg i VF = true) :
    (∃ x y, i = .addReg x y ∨ i = .subReg x y ∨ i = .shr x y ∨ i = .subnReg x y ∨ i = .shl x y) ∨
    (∃ x y n, i = .draw x y n) ∨
    (∃ nn, i = .ldImm VF nn ∨ i = .addImm VF nn ∨ i = .rnd VF nn) ∨
    (∃ y, i = .ldReg VF y ∨ i = .orReg VF y ∨ i = .andReg VF y ∨ i = .xorReg VF y) ∨
    i = .ldVxDT VF ∨ i = .ldVxK VF ∨ i = .loadRegs VF := by
  cases i
  case addReg | subReg | shr | subnReg | shl => simp
  case draw => simp
  case ldImm | addImm | rnd | ldReg | orReg | andReg | xorReg | ldVxDT | ldVxK => simp [← eq_of_beq h]
  case loadRegs x =>
    have hx : x = VF := Fin.le_antisymm (Fin.le_last x) (of_decide_eq_true h)
    simp [hx]
  all_goals cases h

/-- Settles O33: a flag writer ends with the flag, and what changes VF is one of its writers. -/
theorem flagIsZeroOrOne : Obligations.FlagIsZeroOrOne := by
  intro i s t h
  refine ⟨?_, ?_, fun hn => writesReg_VF ((accessMatrixOfWrites i s t h).1 VF hn)⟩
  · rintro ⟨x, y, rfl | rfl | rfl | rfl | rfl⟩ <;> cases h <;> exact setFlag_getV_VF ..
  · rintro x y n rfl hrange
    obtain ⟨-, rfl⟩ | ⟨hc, -⟩ := guarded_cases h
    · exact setFlag_getV_VF ..
    · exact absurd (decide_eq_true hrange) (Bool.eq_false_iff.1 hc)

end Sys2Proof.Machine
end

section
/-! PROOF. What an instruction does not read (R28, R35, R243): the same instruction run twice, with ST or an unread register
changed. -/

namespace Sys2Proof.Machine

/-! ### A change of state carried through an instruction -/

/-- A change `g` that leaves FAULT to the fault entry carries through a range check, if it does through the work. -/
theorem guarded_map {g : State → State} {s t u : State} {c : Bool} {f : FaultStatus}
    (hg : { g s with fault := f } = g { s with fault := f })
    (h : (if c then .next u else raise f s) = (.next t : Result)) :
    (if c then .next (g u) else raise f (g s)) = (.next (g t) : Result) := by
  obtain ⟨rfl, rfl⟩ | ⟨rfl, rfl⟩ := guarded_cases h
  · rfl
  · exact congrArg Host.Outcome.next hg

/-! ### The sound timer -/

/-- An instruction other than FX18 carries any value of ST through. -/
theorem exec_setST {i : Instr} {s t : State} (b : Byte) (hi : ∀ x, i ≠ .ldSTVx x) (h : exec i s = .next t) :
    exec i (s.setST b) = .next (t.setST b) := by
  cases i
  case ldSTVx x => exact absurd rfl (hi x)
  case ret =>
    obtain ⟨hsp, rfl⟩ | ⟨hsp, rfl⟩ := execRet_cases h
    · exact execRet_of_pos (s := s.setST b) hsp
    · exact execRet_of_empty (s := s.setST b) hsp
  case call nnn =>
    obtain ⟨hsp, rfl⟩ | ⟨hsp, rfl⟩ := execCall_cases h
    · exact execCall_of_lt (s := s.setST b) nnn hsp
    · exact execCall_of_full (s := s.setST b) nnn hsp
  case ldVxK x =>
    obtain ⟨k, hk, rfl⟩ | ⟨hk, rfl⟩ := execLdVxK_cases h
    · exact execLdVxK_of_some (s := s.setST b) x hk
    · exact execLdVxK_of_none (s := t.setST b) x hk
  case draw | ldB | storeRegs | loadRegs => exact guarded_map (g := (State.setST · b)) rfl h
  all_goals
    cases h
    rfl

theorem sameBut_setST (s : State) (b : Byte) : SameBut [.st] s (s.setST b) := by
  simp [SameBut]

/-- Settles O32: FX18 overwrites ST, and every other instruction carries it through. -/
theorem noInstructionReadsTheSoundTimer : Obligations.NoInstructionReadsTheSoundTimer := by
  intro i b s t h
  by_cases hi : ∃ x, i = .ldSTVx x
  · obtain ⟨x, rfl⟩ := hi
    exact ⟨t, h, SameBut.refl _ t, fun _ _ => rfl, fun hn => absurd rfl (hn x)⟩
  · have hne : ∀ x, i ≠ .ldSTVx x := fun x hx => hi ⟨x, hx⟩
    refine ⟨t.setST b, exec_setST b hne h, sameBut_setST t b, fun x hx => absurd hx (hne x), fun _ => ⟨?_, rfl⟩⟩
    obtain ⟨-, -, -, -, -, -, hst, -⟩ := exec_sameBut h
    exact hst (mt writes_st hi)

/-! ### Writes of two registers -/

section
variable (s : State) {j x : RegIdx} (b c : Byte)

theorem setV_setV_same : (s.setV x b).setV x c = s.setV x c := by
  simp only [State.setV, Vector.set_set]

theorem setV_setV_comm (h : j ≠ x) : (s.setV j b).setV x c = (s.setV x c).setV j b := by
  have hv : j.val ≠ x.val := Fin.val_ne_of_ne h
  simp only [State.setV, Vector.set_comm _ _ hv]

theorem getV_setV_of_unread (h : (j == x) = false) : (s.setV j b).getV x = s.getV x :=
  (State.setV_getV ..).trans (if_neg (ne_of_beq_false h).symm)

theorem advance_pc_ne : (s.advance).pc ≠ s.pc := by
  intro h
  have := congrArg BitVec.toNat h
  rw [State.advance_pc, BitVec.toNat_add, show (2 : Word).toNat = 2 from rfl] at this
  have := s.pc.isLt
  omega

/-- A register above the range FX55 stores is not stored. -/
theorem regRange_setV (h : x < j) : (s.setV j b).regRange x = s.regRange x := by
  simp only [State.regRange, State.setV, Vector.toList_set]
  exact List.take_set_of_le (Nat.succ_le_of_lt h)

end

/-- The registers after FX65's copy do not depend on what a register inside it held. -/
theorem setRegs_setV_of_lt (s : State) {j : RegIdx} (b : Byte) {us : List Byte} (h : j.val < us.length) :
    (s.setV j b).setRegs us = s.setRegs us := by
  have hv : Machine.setRegs (s.v.set j.val b) 0 us = Machine.setRegs s.v 0 us := by
    refine Vector.ext fun k hk => ?_
    rw [getElem_setRegs, getElem_setRegs, Vector.getElem_set]
    split_ifs with hin hjk
    · rfl
    · omega
    · rfl
  simp only [State.setRegs, State.setV, hv]

/-- FX65's copy leaves the registers above it. -/
theorem setRegs_setV_of_le (s : State) {j : RegIdx} (b : Byte) {us : List Byte} (h : us.length ≤ j.val) :
    (s.setV j b).setRegs us = (s.setRegs us).setV j b := by
  have hv : Machine.setRegs (s.v.set j.val b) 0 us = (Machine.setRegs s.v 0 us).set j.val b := by
    refine Vector.ext fun k hk => ?_
    rw [getElem_setRegs, Vector.getElem_set, Vector.getElem_set, getElem_setRegs]
    by_cases hjk : j.val = k
    · rw [if_neg (by omega), if_pos hjk, if_pos hjk]
    · rw [if_neg hjk, if_neg hjk]
  simp only [State.setRegs, State.setV, hv]

/-! ### An unread register -/

/-- Two results from states that differ in register `j` alone, which holds `b` in the second: where `j` is written and PC
moves they are one state, and else they still differ in `j` alone, which each run leaves. -/
def SameButUnread (written : Bool) (j : RegIdx) (b : Byte) (s : State) (r r' : Result) : Prop :=
  ∃ t, r = .next t ∧
    ((written = true ∧ t.pc ≠ s.pc ∧ r' = .next t) ∨
     ((written = false ∨ t.pc = s.pc) ∧ t.getV j = s.getV j ∧ r' = .next (t.setV j b)))

section
variable {s u u' : State} {j x : RegIdx} {b : Byte} {written : Bool}

theorem SameButUnread.kept (hu : u' = u.setV j b) (hj : u.getV j = s.getV j) :
    SameButUnread false j b s (.next u) (.next u') :=
  ⟨u, rfl, .inr ⟨.inl rfl, hj, congrArg _ hu⟩⟩

theorem SameButUnread.stayed (hu : u' = u.setV j b) (hpc : u.pc = s.pc) (hj : u.getV j = s.getV j) :
    SameButUnread written j b s (.next u) (.next u') :=
  ⟨u, rfl, .inr ⟨.inr hpc, hj, congrArg _ hu⟩⟩

theorem SameButUnread.overwritten (hw : written = true) (hpc : u.pc ≠ s.pc) (hu : u' = u) :
    SameButUnread written j b s (.next u) (.next u') :=
  ⟨u, rfl, .inl ⟨hw, hpc, congrArg _ hu⟩⟩

theorem SameButUnread.raise (f : FaultStatus) : SameButUnread written j b s (raise f s) (Machine.raise f (s.setV j b)) :=
  .stayed rfl rfl rfl

/-- A checked instruction: its work, or the fault entry, which leaves PC. -/
theorem SameButUnread.guarded {c : Bool} {f : FaultStatus}
    (h : SameButUnread written j b s (.next u) (.next u')) :
    SameButUnread written j b s (if c then .next u else Machine.raise f s)
      (if c then .next u' else Machine.raise f (s.setV j b)) := by
  cases c with
  | true => exact h
  | false => exact .raise f

/-- A result written to V[x], the same in both runs. -/
theorem SameButUnread.result {c c' : Byte} (hc : c' = c) :
    SameButUnread (j == x) j b s (writeResult s x c) (writeResult (s.setV j b) x c') := by
  subst hc
  by_cases hj : j = x
  · subst hj
    exact .overwritten (beq_self_eq_true j) (advance_pc_ne s) (congrArg State.advance (setV_setV_same s b c'))
  · rw [beq_false_of_ne hj]
    exact .kept (congrArg State.advance (setV_setV_comm s b c' hj)) ((State.setV_getV ..).trans (if_neg hj))

/-- A result and the flag, the same in both runs: `j` is V[x], or VF, or kept. -/
theorem SameButUnread.resultAndFlag {c c' : Byte} {f f' : Bool} (hc : c' = c) (hf : f' = f) :
    SameButUnread (j == x || j == VF) j b s (writeResultAndFlag s x c f) (writeResultAndFlag (s.setV j b) x c' f') := by
  subst hc hf
  by_cases hj : j = x
  · subst hj
    refine .overwritten (by rw [beq_self_eq_true, Bool.true_or]) (advance_pc_ne s) ?_
    rw [setV_setV_same]
  · have hcomm := setV_setV_comm s b c' hj
    rw [beq_false_of_ne hj, Bool.false_or]
    by_cases hVF : j = VF
    · subst hVF
      refine .overwritten (beq_self_eq_true VF) (advance_pc_ne s) ?_
      rw [hcomm, State.setFlag, setV_setV_same]
      rfl
    · rw [beq_false_of_ne hVF]
      refine .kept ?_ ?_
      · rw [hcomm, State.setFlag, setV_setV_comm _ _ _ hVF]
        rfl
      · exact ((State.setFlag_getV ..).trans (if_neg hVF)).trans ((State.setV_getV ..).trans (if_neg hj))

end

/-- No instruction reads a register that the matrix does not say it reads. -/
theorem exec_setV_of_unread (i : Instr) (j : RegIdx) (b : Byte) (s : State) (h : readsReg i j = false) :
    SameButUnread (writesReg i j) j b s (exec i s) (exec i (s.setV j b)) := by
  have unread {x : RegIdx} (hx : (j == x) = false) : (s.setV j b).getV x = s.getV x := getV_setV_of_unread s b hx
  have unread2 {x y : RegIdx} (hxy : (j == x || j == y) = false) :
      (s.setV j b).getV x = s.getV x ∧ (s.setV j b).getV y = s.getV y := by
    obtain ⟨hx, hy⟩ := Bool.or_eq_false_iff.1 hxy
    exact ⟨unread hx, unread hy⟩
  cases i
  case cls | jp | ldI => exact .kept rfl rfl
  case ret =>
    by_cases hsp : s.sp.val = 0
    · rw [exec, execRet_of_empty hsp, exec, execRet_of_empty (s := s.setV j b) hsp]
      exact .raise _
    · rw [exec, execRet_of_pos hsp, exec, execRet_of_pos (s := s.setV j b) hsp]
      exact .kept rfl rfl
  case call nnn =>
    by_cases hsp : s.sp.val = 16
    · rw [exec, execCall_of_full nnn hsp, exec, execCall_of_full (s := s.setV j b) nnn hsp]
      exact .raise _
    · have hlt : s.sp.val < 16 := by omega
      rw [exec, execCall_of_lt nnn hlt, exec, execCall_of_lt (s := s.setV j b) nnn hlt]
      exact .kept rfl rfl
  case seImm | sneImm | skp | sknp | jpV0 | ldDTVx | ldSTVx | addI | ldF => exact .kept (by rw [unread h]; rfl) rfl
  case seReg | sneReg =>
    obtain ⟨hx, hy⟩ := unread2 h
    exact .kept (by rw [hx, hy]; rfl) rfl
  case ldImm | ldVxDT => exact .result rfl
  case addImm | ldReg => exact .result (by rw [unread h])
  case orReg | andReg | xorReg =>
    obtain ⟨hx, hy⟩ := unread2 h
    exact .result (by rw [hx, hy])
  case addReg | subReg | subnReg =>
    obtain ⟨hx, hy⟩ := unread2 h
    exact .resultAndFlag (by rw [hx, hy]) (by rw [hx, hy])
  case shr | shl => exact .resultAndFlag (by rw [unread h]) (by rw [unread h])
  case rnd x nn => exact .result (s := s.nextDraw) rfl
  case ldVxK x =>
    cases hk : s.firstPressed with
    | some k =>
      rw [exec, execLdVxK_of_some x hk, exec, execLdVxK_of_some (s := s.setV j b) x hk]
      exact .result rfl
    | none =>
      rw [exec, execLdVxK_of_none x hk, exec, execLdVxK_of_none (s := s.setV j b) x hk]
      exact .stayed rfl rfl rfl
  case draw x y n =>
    obtain ⟨hx, hy⟩ := unread2 h
    simp only [exec, execDraw, hx, hy]
    exact .guarded (.result (s := s.setFB _) rfl)
  case ldB => exact .guarded (.kept (by rw [unread h]; rfl) rfl)
  case storeRegs x =>
    have hx : x < j := Nat.not_le.1 (of_decide_eq_false h)
    exact .guarded (.kept (by rw [regRange_setV s b hx]; rfl) rfl)
  case loadRegs x =>
    have hlen : (readBytes s.mem s.i.toNat (x.val + 1)).length = x.val + 1 := length_readBytes ..
    refine .guarded ?_
    by_cases hj : j ≤ x
    · refine .overwritten (decide_eq_true hj) (advance_pc_ne s) ?_
      rw [State.setV_mem, State.setV_i, setRegs_setV_of_lt s b ((Nat.lt_succ_of_le hj).trans_eq hlen.symm)]
    · rw [show writesReg (.loadRegs x) j = false from decide_eq_false hj]
      refine .kept ?_ ((setRegs_readBytes_getV s x _ j).trans (if_neg hj))
      rw [State.setV_mem, State.setV_i, setRegs_setV_of_le s b (hlen.trans_le (Nat.not_le.1 hj))]
      rfl

/-- Settles O31: the two runs end in one state or in two that differ in the register alone. -/
theorem unreadRegistersDoNotMatter : Obligations.UnreadRegistersDoNotMatter := by
  intro i j b s t h ht
  obtain ⟨t', ht', ⟨hw, hpc, hu⟩ | ⟨hw, hj, hu⟩⟩ := exec_setV_of_unread i j b s h <;> cases ht.symm.trans ht'
  · refine ⟨t, hu, SameBut.refl _ t, fun _ _ => rfl, fun _ _ => rfl, fun hn => ?_⟩
    simp [hw, hpc] at hn
  · refine ⟨t.setV j b, hu, by simp [SameBut], fun k hk => by simp [hk], fun hw' hpc => ?_, fun _ => ⟨hj, by simp⟩⟩
    simp [hw', hpc] at hw

end Sys2Proof.Machine
end

section
/-! PROOF. The draw (R162 to R164): the compositor on the pixels of the sprite, the collision detector, and two draws in a
row. -/

namespace Sys2Proof.Machine

/-! ### The range check -/

section
variable {s : State} {x y : RegIdx} {n : BitVec 4}

/-- The display buffer and the collision bit after a draw in range. -/
def drawCanvas (s : State) (x y : RegIdx) (n : Nat) : Canvas :=
  plotRows ⟨s.fb, false⟩ (s.getV x).toNat (s.getV y).toNat (s.spriteRows n)

theorem execDraw_of_le (h : n.toNat = 0 ∨ s.i.toNat + n.toNat - 1 ≤ 0xFFF) : execDraw x y n s =
    .next ((s.setFB (drawCanvas s x y n.toNat).fb).setFlag (drawCanvas s x y n.toNat).collision).advance :=
  if_pos (decide_eq_true h)

theorem execDraw_of_gt (h : ¬(n.toNat = 0 ∨ s.i.toNat + n.toNat - 1 ≤ 0xFFF)) :
    execDraw x y n s = raise .addressFault s :=
  if_neg (mt of_decide_eq_true h)

end

/-! ### The canvas, in the terms of the sprite -/

section
variable (s : State) (x y : RegIdx) {n p : Nat}

theorem drawCanvas_eq (n : Nat) : drawCanvas s x y n =
    plotCells ⟨s.fb, false⟩ (spriteCells (s.getV x).toNat (s.getV y).toNat (s.spriteRows n)) := plotRows_eq ..

theorem pairwise_drawCells (hn : n ≤ 32) :
    (spriteCells (s.getV x).toNat (s.getV y).toNat (s.spriteRows n)).Pairwise Apart :=
  pairwise_spriteCells _ _ _ ((s.length_spriteRows n).trans_le hn)

/-- A draw turns over the pixels under a 1 bit (R162). -/
theorem drawCanvas_pixel (hn : n ≤ 32) (hp : p < 2048) :
    pixelAt (drawCanvas s x y n).fb (p % 64) (p / 64) = true ↔ ¬(s.pixel p = true ↔ SpriteCovers s x y n p) := by
  rw [drawCanvas_eq, pixelAt_plotCells _ _ _ _ (pairwise_drawCells s x y hn), bne_iff_ne, ne_eq, Bool.eq_iff_iff,
    any_spriteCells_target s x y n p hp]
  rfl

/-- A draw collides where a 1 bit lies over a pixel that was set (R163). -/
theorem drawCanvas_collision (hn : n ≤ 32) : (drawCanvas s x y n).collision = true ↔ SpriteCollides s x y n := by
  rw [drawCanvas_eq, collision_plotCells _ _ (pairwise_drawCells s x y hn), Bool.false_or, List.any_eq_true]
  constructor
  · rintro ⟨d, hd, hbit⟩
    obtain ⟨r, j, hr, hj, rfl⟩ := (mem_spriteCells ..).1 hd
    rw [s.length_spriteRows] at hr
    rw [s.getD_spriteRows n r hr, pixelAt_target, Bool.and_eq_true] at hbit
    exact ⟨r, j, hr, hj, hbit.2, hbit.1⟩
  · rintro ⟨r, j, hr, hj, hpixel, hbit⟩
    refine ⟨_, (mem_spriteCells ..).2 ⟨r, j, (s.length_spriteRows n).symm ▸ hr, hj, rfl⟩, ?_⟩
    rw [s.getD_spriteRows n r hr, pixelAt_target, Bool.and_eq_true]
    exact ⟨hbit, hpixel⟩

end

/-- What DXYN does in range: the pixels, the flag, and the frame. -/
theorem exec_draw_spec (x y : RegIdx) (n : BitVec 4) (s : State)
    (h : n.toNat = 0 ∨ s.i.toNat + n.toNat - 1 ≤ 0xFFF) : ∃ t, exec (.draw x y n) s = .next t ∧
      (∀ p, p < 2048 → (t.pixel p = true ↔ ¬(s.pixel p = true ↔ SpriteCovers s x y n.toNat p))) ∧
      (SpriteCollides s x y n.toNat → t.getV VF = 0x01) ∧ (¬SpriteCollides s x y n.toNat → t.getV VF = 0x00) ∧
      (∀ j, j ≠ VF → t.getV j = s.getV j) ∧ t.pc = s.pc + 2 ∧ SameBut [.fb, .v, .pc] s t := by
  have hn : n.toNat ≤ 32 := by omega
  have hVF : (((s.setFB (drawCanvas s x y n.toNat).fb).setFlag (drawCanvas s x y n.toNat).collision).advance).getV VF =
      if (drawCanvas s x y n.toNat).collision then 0x01 else 0x00 := by simp
  refine ⟨_, execDraw_of_le h, fun p hp => drawCanvas_pixel s x y hn hp, fun hc => ?_, fun hc => ?_, fun j hj => ?_, rfl,
    by simp [SameBut]⟩
  · rw [hVF, if_pos ((drawCanvas_collision s x y hn).2 hc)]
  · rw [hVF, if_neg (mt (drawCanvas_collision s x y hn).1 hc)]
  · simp [hj]

/-- Settles O52: the row decodes by its class, and DXYN draws where its range check passes and else faults (R162). -/
theorem drawXorsTheSprite : Obligations.DrawXorsTheSprite := by
  refine ⟨encodedAs_of_class fun _ => decode_classD, fun x y n s => ⟨fun h => ?_, execDraw_of_gt⟩⟩
  obtain ⟨t, ht, hpixel, -, -, hframe⟩ := exec_draw_spec x y n s h
  exact ⟨t, ht, hpixel, hframe⟩

/-- Settles O53: the flag DXYN writes is the collision of the sprite with the pixels before the draw (R163). -/
theorem collisionIsOldPixelUnderASpriteBit : Obligations.CollisionIsOldPixelUnderASpriteBit := by
  intro x y n s h
  obtain ⟨t, ht, -, hcollides, hclear, -⟩ := exec_draw_spec x y n s h
  exact ⟨t, ht, hcollides, hclear⟩

/-! ### The same sprite at the same place (R164) -/

/-- Turning a pixel over twice, each time if `c`, leaves it as it was. -/
theorem turned_over_twice {a b d c : Prop} (hb : b ↔ ¬(a ↔ c)) (hd : d ↔ ¬(b ↔ c)) : d ↔ a := by
  tauto

section
variable {s t : State} {x y : RegIdx} {n : Nat}

theorem targetPixel_lt (s : State) (x y : RegIdx) (r j : Nat) : targetPixel s x y r j < 2048 := by
  unfold targetPixel
  omega

theorem targetPixel_congr (hx : t.getV x = s.getV x) (hy : t.getV y = s.getV y) (r j : Nat) :
    targetPixel t x y r j = targetPixel s x y r j := by
  rw [targetPixel, targetPixel, hx, hy]

theorem spritePixel_congr (hi : t.i = s.i) (hm : ∀ a, readByte t.mem a = readByte s.mem a) (r j : Nat) :
    spritePixel t r j = spritePixel s r j := by
  rw [spritePixel, spritePixel, hi, hm]

variable (hplace : ∀ r j, targetPixel t x y r j = targetPixel s x y r j)
  (hbits : ∀ r j, spritePixel t r j = spritePixel s r j)

include hplace hbits

theorem spriteCovers_congr {p : Nat} : SpriteCovers t x y n p ↔ SpriteCovers s x y n p := by
  simp only [SpriteCovers, hplace, hbits]

/-- Over the pixels of a draw, the same sprite collides exactly where that draw set a pixel. -/
theorem spriteCollides_drawn
    (hpixel : ∀ p, p < 2048 → (t.pixel p = true ↔ ¬(s.pixel p = true ↔ SpriteCovers s x y n p))) :
    SpriteCollides t x y n ↔
      ∃ r j, r < n ∧ j < 8 ∧ spritePixel s r j = true ∧ s.pixel (targetPixel s x y r j) = false := by
  have hset {r j : Nat} (hr : r < n) (hj : j < 8) (hb : spritePixel s r j = true) :
      t.pixel (targetPixel s x y r j) = true ↔ s.pixel (targetPixel s x y r j) = false := by
    have hcover : SpriteCovers s x y n (targetPixel s x y r j) := ⟨r, j, hr, hj, rfl, hb⟩
    rw [hpixel _ (targetPixel_lt s x y r j), iff_true_right hcover, Bool.not_eq_true]
  simp only [SpriteCollides, hplace, hbits]
  refine exists_congr fun r => exists_congr fun j => and_congr_right fun hr => and_congr_right fun hj => ?_
  rw [and_comm]
  exact and_congr_right fun hb => hset hr hj hb

end

/-- Settles O54: VF is neither coordinate, so the second draw has the first one's sprite at the first one's place; it turns
the same pixels over again, and meets set pixels where the first met clear ones (R164). -/
theorem drawingTwiceRestoresTheDisplay : Obligations.DrawingTwiceRestoresTheDisplay := by
  intro x y n s hx hy h
  obtain ⟨t, ht, hpixel, hcollides, -, hv, -, -, hi, -, -, -, -, -, -, -, hmem, -⟩ := exec_draw_spec x y n s h
  have hi : t.i = s.i := hi (by decide)
  have hplace := targetPixel_congr (hv x hx) (hv y hy)
  have hbits := spritePixel_congr hi (hmem (by decide))
  obtain ⟨u, hu, hpixel', hcollides', hclear', -⟩ := exec_draw_spec x y n t (hi ▸ h)
  have hflag : u.getV VF = 0x01 ↔
      ∃ r j, r < n.toNat ∧ j < 8 ∧ spritePixel s r j = true ∧ s.pixel (targetPixel s x y r j) = false := by
    rw [← spriteCollides_drawn hplace hbits hpixel]
    refine ⟨fun hu1 => ?_, hcollides'⟩
    by_contra hc
    rw [hclear' hc] at hu1
    exact absurd hu1 (by decide)
  refine ⟨t, u, ht, hu, fun p hp => ?_, hflag, ?_⟩
  · have hagain := hpixel' p hp
    rw [spriteCovers_congr hplace hbits] at hagain
    exact Bool.eq_iff_iff.2 (turned_over_twice (hpixel p hp) hagain)
  · rintro ⟨r, j, hr, hj, hb⟩
    cases hold : s.pixel (targetPixel s x y r j) with
    | true => exact .inl (hcollides ⟨r, j, hr, hj, hold, hb⟩)
    | false => exact .inr (hflag.2 ⟨r, j, hr, hj, hb, hold⟩)

end Sys2Proof.Machine
end
